-- ==== Sys2Proof/Word.lean ====
section
/-! DEFINITION. The word types of the machine: a byte is a general register or a memory cell, a word is an instruction
word, the program counter, the index register or a return address (00_scope.md R8). Values are unsigned throughout
(R10), so `BitVec` arithmetic, which is modulo a power of two, is the spec's `trunc8` and `trunc16`. -/

namespace Sys2Proof

/-- 8 bits: `x[i]`, `dt`, `st`, `lfsr`, a memory byte (R8). -/
abbrev Byte := BitVec 8

/-- 16 bits: an instruction word, `pc`, `ri`, a return address (R8). -/
abbrev Word := BitVec 16

/-- 4 bits: a register index X or Y, or the row count N (00_scope.md R11). -/
abbrev Nibble := BitVec 4

/-- 12 bits: the address or immediate NNN (00_scope.md R11). -/
abbrev Addr12 := BitVec 12

/-- `zext_16` of a byte (00_scope.md R12). -/
def Byte.toWord (b : Byte) : Word := b.setWidth 16

/-- `zext_16` of a 12-bit immediate (00_scope.md R12, 30_encoding.md R92). -/
def Addr12.toWord (a : Addr12) : Word := a.setWidth 16

/-- Index 15, the register `x[F]` that doubles as the flag (10_state.md R22). -/
abbrev flagIndex : Nibble := 0xF#4

end Sys2Proof
end

