-- ==== Sys2Proof/Syntax.lean ====
section
/-! DEFINITION. The 26 instructions of the opcode table (30_encoding.md R95), one constructor per row, in the table's
order. Operands are the decoded fields of 00_scope.md R11 at their own widths, so every term is an instruction that
some word encodes. 8XY6 and 8XYE keep their Y field although no effect depends on it (R93): each word has its own
term, and a fault record can name the word exactly. -/

namespace Sys2Proof

/-- An instruction. `x`, `y` are register indices, `n` the row count, `nn` the 8-bit and `nnn` the 12-bit immediate. -/
inductive Instr where
  /-- 00E0 (CLS): clear the framebuffer, publish. -/
  | cls
  /-- 00EE (RET): return from subroutine. -/
  | ret
  /-- 1NNN (JP NNN): jump. -/
  | jp (nnn : Addr12)
  /-- 2NNN (CALL NNN): call. -/
  | call (nnn : Addr12)
  /-- 3XNN (SE Vx, NN): skip if equal to the immediate. -/
  | seImm (x : Nibble) (nn : Byte)
  /-- 4XNN (SNE Vx, NN): skip if not equal to the immediate. -/
  | sneImm (x : Nibble) (nn : Byte)
  /-- 5XY0 (SE Vx, Vy): skip if the registers are equal. -/
  | seReg (x y : Nibble)
  /-- 6XNN (LD Vx, NN): load the immediate. -/
  | ldImm (x : Nibble) (nn : Byte)
  /-- 7XNN (ADD Vx, NN): add the immediate, no flag. -/
  | addImm (x : Nibble) (nn : Byte)
  /-- 8XY0 (LD Vx, Vy): copy. -/
  | ldReg (x y : Nibble)
  /-- 8XY1 (OR Vx, Vy). -/
  | orReg (x y : Nibble)
  /-- 8XY2 (AND Vx, Vy). -/
  | andReg (x y : Nibble)
  /-- 8XY3 (XOR Vx, Vy). -/
  | xorReg (x y : Nibble)
  /-- 8XY4 (ADD Vx, Vy): add, carry to x[F]. -/
  | addReg (x y : Nibble)
  /-- 8XY5 (SUB Vx, Vy): x[X] − x[Y], borrow to x[F]. -/
  | subReg (x y : Nibble)
  /-- 8XY6 (SHR Vx): shift right by one, lost bit to x[F]; `y` is decoded but unused (R93). -/
  | shr (x y : Nibble)
  /-- 8XY7 (SUBN Vx, Vy): x[Y] − x[X], borrow to x[F]. -/
  | subnReg (x y : Nibble)
  /-- 8XYE (SHL Vx): shift left by one, lost bit to x[F]; `y` is decoded but unused (R93). -/
  | shl (x y : Nibble)
  /-- 9XY0 (SNE Vx, Vy): skip if the registers differ. -/
  | sneReg (x y : Nibble)
  /-- ANNN (LD I, NNN): load the index register. -/
  | ldI (nnn : Addr12)
  /-- BNNN (JP V0, NNN): jump to x[0] + NNN. -/
  | jpV0 (nnn : Addr12)
  /-- CXNN (RND Vx, NN): next pseudo-random byte AND NN. -/
  | rnd (x : Nibble) (nn : Byte)
  /-- DXYN (DRW Vx, Vy, N): draw a sprite of N rows. -/
  | drw (x y n : Nibble)
  /-- FX07 (LD Vx, DT): read the delay timer. -/
  | ldFromDt (x : Nibble)
  /-- FX15 (LD DT, Vx): write the delay timer. -/
  | ldDt (x : Nibble)
  /-- FX18 (LD ST, Vx): write the sound timer. -/
  | ldSt (x : Nibble)
  deriving DecidableEq, Repr

end Sys2Proof
end

