-- ==== Sys2Proof/Config.lean ====
section
/-! DEFINITION. What is fixed for one machine and not changed by running it: the parameters that 00_scope.md R9 leaves
open, as one structure, and the constants the source fixes (R8). DRAW_EDGE and DRAW_COLLISION have one legal value each in
this spec (clip, none) and are therefore not fields but the way Machine/Display.lean is written. -/

namespace Sys2Proof

/-- The parameters of R9, which the model takes as an argument: they stand in the state they govern, where no step
changes them (log entry 26). Which values are legal: `Params.legal` in WellFormed.lean. The values `State.reset` has:
`Config.params` in Machine/Parameters.lean. -/
structure Params where
  /-- STACK_DEPTH: a number of entries, or none for the unbounded stack of the reference (10_state.md R25). -/
  stackDepth : Option Nat
  /-- PRNG_SEED: what `lfsr` holds after a reset (60_exceptions.md R249). -/
  prngSeed : Byte
  /-- FONT_TABLE: what 0x050 to 0x09F hold after a reset (10_state.md R33). -/
  fontTable : List Byte
  /-- CPU_HZ. No rule uses it (70_reset_and_hazards.md R293), log entry 20. -/
  cpuHz : Rat
  deriving DecidableEq, Repr

end Sys2Proof

namespace Sys2Proof.Config

/-- MEM_SIZE (R8): addresses 0x000 to 0xFFF. -/
abbrev memSize : Nat := 4096

/-- The highest address that names a byte (20_memory.md R60). -/
abbrev maxAddr : Nat := 0xFFF

/-- FONT_BASE (R8). -/
abbrev fontBase : Nat := 0x050

/-- FONT_LEN (R8). -/
abbrev fontLen : Nat := 80

/-- PROG_BASE (R8): load address and reset value of `pc`. -/
abbrev progBase : Nat := 0x200

/-- MAX_PROG (R8): 4096 − 0x200. -/
abbrev maxProg : Nat := 3584

/-- FB_W (R8). -/
abbrev fbWidth : Nat := 64

/-- FB_H (R8). -/
abbrev fbHeight : Nat := 32

/-- TIMER_HZ (R8). No rule of the model uses it (R9, 70_reset_and_hazards.md R293), log entry 20. -/
abbrev timerHz : Nat := 60

/-- How far PRNG_SEED lies above 0x04. The spec gives PRNG_SEED no value and the legal range 0x04 to 0xFF (R9,
60_exceptions.md R249): a constant without a body, so that nothing can be proved of it but its range.
DESIGN CHOICE (safe), log entry 3. -/
opaque seedAboveFour : Fin 252

end Sys2Proof.Config
end

