-- ==== Sys2Proof/WellFormed.lean ====
section
/-! DEFINITION. What has to be checked about terms from outside. An instruction has nothing left to check: every operand
stands at the width of its field, and every value of every field is legal (30_encoding.md R92: "every index is legal in
every X and Y field, including 15 … and including X = Y"; `44_display.md` R206 for N = 0). What does have a check is the
program handed to the load (70_reset_and_hazards.md R285) and the parameters of the machine (00_scope.md R9). -/

namespace Sys2Proof

/-- Every instruction is well formed: the operand types admit exactly the values the encoding admits (R92). One arm per
constructor, so that a new instruction must say what it checks. -/
def Instr.wellFormed : Instr → Bool
  | .cls | .ret => true
  | .jp _ | .call _ | .ldI _ | .jpV0 _ => true
  | .seImm _ _ | .sneImm _ _ | .ldImm _ _ | .addImm _ _ | .rnd _ _ => true
  | .seReg _ _ | .sneReg _ _ | .ldReg _ _ | .orReg _ _ | .andReg _ _ | .xorReg _ _ => true
  | .addReg _ _ | .subReg _ _ | .shr _ _ | .subnReg _ _ | .shl _ _ => true
  | .drw _ _ _ => true
  | .ldFromDt _ | .ldDt _ | .ldSt _ => true

/-- A program fits in memory: at most 3584 bytes (R285). Odd lengths and length 0 are legal. -/
def programFits (bytes : List Byte) : Bool := decide (bytes.length ≤ Config.maxProg)

/-- The legal values of PRNG_SEED, 0x04 to 0xFF (R9; 60_exceptions.md R249). -/
def Config.legalSeed (seed : Byte) : Bool := decide (4 ≤ seed.toNat)

/-- The legal values of STACK_DEPTH: 1 and above (R9), or unbounded (10_state.md R25). -/
def Config.legalStackDepth : Option Nat → Bool
  | none => true
  | some depth => decide (1 ≤ depth)

/-- The legal values of FONT_TABLE: 80 bytes whose first five are F0 90 90 90 F0 (R9). -/
def Config.legalFont (font : List Byte) : Bool :=
  decide (font.length = Config.fontLen ∧ font.take 5 = [0xF0#8, 0x90#8, 0x90#8, 0x90#8, 0xF0#8])

/-- The legal values of CPU_HZ: any positive rate (R9). -/
def Config.legalRate (rate : Rat) : Bool := decide (0 < rate)

/-- The legal parameters of a machine (R9). -/
def Params.legal (p : Params) : Bool :=
  Config.legalStackDepth p.stackDepth && Config.legalSeed p.prngSeed && Config.legalFont p.fontTable
    && Config.legalRate p.cpuHz

end Sys2Proof
end

