-- ==== Sys2Proof/Decode.lean ====
section
/-! DEFINITION. From instruction words to instructions and back (30_encoding.md). `decodeWord` dispatches by family as
R96 tabulates it; `encode` writes the words of the `encoding` column of R95; `opcodeTable` is the table itself, its
`match` and `mask` columns and how a row's fields are read. -/

namespace Sys2Proof

/-- Why bytes are no instruction. -/
inductive DecodeError where
  /-- No row of the opcode table matches the word (R99). -/
  | unrecognizedOpcode (w : Word)
  /-- Fewer than the two bytes of an instruction (R90). -/
  | truncated
  deriving DecidableEq, Repr

/-! ## Fields (00_scope.md R11) -/

/-- `op = w[15:12]`, the opcode family. -/
def opField (w : Word) : Nibble := w.extractLsb' 12 4

/-- `X = w[11:8]`. -/
def xField (w : Word) : Nibble := w.extractLsb' 8 4

/-- `Y = w[7:4]`. -/
def yField (w : Word) : Nibble := w.extractLsb' 4 4

/-- `N = w[3:0]`. -/
def nField (w : Word) : Nibble := w.extractLsb' 0 4

/-- `NN = w[7:0]`. -/
def nnField (w : Word) : Byte := w.extractLsb' 0 8

/-- `NNN = w[11:0]`. -/
def nnnField (w : Word) : Addr12 := w.extractLsb' 0 12

/-- The bytes of a word as they lie in memory, the most significant first (R90, 20_memory.md R62). -/
def wordBytes (w : Word) : List Byte := [w.extractLsb' 8 8, w.extractLsb' 0 8]

/-- Two bytes, the one at the lower address first, as a word (R90, 20_memory.md R62). -/
def bytesWord (hi lo : Byte) : Word := hi ++ lo

/-! ## Decoding -/

/-- Family 0 (R96): only 00E0 and 00EE. -/
def decodeFamily0 (w : Word) : Except DecodeError Instr :=
  if w = 0x00E0#16 then .ok .cls
  else if w = 0x00EE#16 then .ok .ret
  else .error (.unrecognizedOpcode w)

/-- Family 5 (R96): the bottom nibble must be 0. -/
def decodeFamily5 (w : Word) : Except DecodeError Instr :=
  if nField w = 0x0#4 then .ok (.seReg (xField w) (yField w)) else .error (.unrecognizedOpcode w)

/-- Family 8 (R96): the bottom nibble selects the operation. -/
def decodeFamily8 (w : Word) : Except DecodeError Instr :=
  let x := xField w
  let y := yField w
  match nField w with
  | 0x0#4 => .ok (.ldReg x y)
  | 0x1#4 => .ok (.orReg x y)
  | 0x2#4 => .ok (.andReg x y)
  | 0x3#4 => .ok (.xorReg x y)
  | 0x4#4 => .ok (.addReg x y)
  | 0x5#4 => .ok (.subReg x y)
  | 0x6#4 => .ok (.shr x y)
  | 0x7#4 => .ok (.subnReg x y)
  | 0xE#4 => .ok (.shl x y)
  | _ => .error (.unrecognizedOpcode w)

/-- Family 9 (R96): the bottom nibble must be 0. -/
def decodeFamily9 (w : Word) : Except DecodeError Instr :=
  if nField w = 0x0#4 then .ok (.sneReg (xField w) (yField w)) else .error (.unrecognizedOpcode w)

/-- Family F (R96): the bottom byte must be 0x07, 0x15 or 0x18. -/
def decodeFamilyF (w : Word) : Except DecodeError Instr :=
  let x := xField w
  match nnField w with
  | 0x07#8 => .ok (.ldFromDt x)
  | 0x15#8 => .ok (.ldDt x)
  | 0x18#8 => .ok (.ldSt x)
  | _ => .error (.unrecognizedOpcode w)

/-- The instruction a word selects, or its rejection (R94, R96, R99). It reads nothing but the word (R97).
Sub-opcodes must match exactly: the spec's decision D5, log entry 10. -/
def decodeWord (w : Word) : Except DecodeError Instr :=
  match opField w with
  | 0x0#4 => decodeFamily0 w
  | 0x1#4 => .ok (.jp (nnnField w))
  | 0x2#4 => .ok (.call (nnnField w))
  | 0x3#4 => .ok (.seImm (xField w) (nnField w))
  | 0x4#4 => .ok (.sneImm (xField w) (nnField w))
  | 0x5#4 => decodeFamily5 w
  | 0x6#4 => .ok (.ldImm (xField w) (nnField w))
  | 0x7#4 => .ok (.addImm (xField w) (nnField w))
  | 0x8#4 => decodeFamily8 w
  | 0x9#4 => decodeFamily9 w
  | 0xA#4 => .ok (.ldI (nnnField w))
  | 0xB#4 => .ok (.jpV0 (nnnField w))
  | 0xC#4 => .ok (.rnd (xField w) (nnField w))
  | 0xD#4 => .ok (.drw (xField w) (yField w) (nField w))
  | 0xF#4 => decodeFamilyF w
  | _ => .error (.unrecognizedOpcode w)

/-- Decoding from bytes as they lie in memory: the instruction at the front and the bytes after it. Total on any
list of bytes. -/
def decodeBytes : List Byte → Except DecodeError (Instr × List Byte)
  | hi :: lo :: rest =>
    match decodeWord (bytesWord hi lo) with
    | .ok i => .ok (i, rest)
    | .error e => .error e
  | _ => .error .truncated

/-- The word whose bits the host numbers as the opcode table does, with every bit above `nbits` zero. Every
instruction is one 16-bit word (R90), so bit 0 is the least significant bit of that word. -/
def tableWord (nbits w : Nat) : Word := BitVec.ofNat 16 (w % 2 ^ nbits)

/-- The instruction the decoder reads from the bytes of a table word (the host's question). -/
def decodeTableWord (nbits w : Nat) : Option Instr :=
  match decodeBytes (wordBytes (tableWord nbits w)) with
  | .ok (i, _) => some i
  | .error _ => none

/-! ## Encoding -/

/-- The word of an instruction: the `encoding` column of the opcode table (R91, R95), fixed digits and fields from bit
15 downwards. -/
def encode : Instr → Word
  | .cls => 0x00E0#16
  | .ret => 0x00EE#16
  | .jp nnn => 0x1#4 ++ nnn
  | .call nnn => 0x2#4 ++ nnn
  | .seImm x nn => 0x3#4 ++ x ++ nn
  | .sneImm x nn => 0x4#4 ++ x ++ nn
  | .seReg x y => 0x5#4 ++ x ++ y ++ 0x0#4
  | .ldImm x nn => 0x6#4 ++ x ++ nn
  | .addImm x nn => 0x7#4 ++ x ++ nn
  | .ldReg x y => 0x8#4 ++ x ++ y ++ 0x0#4
  | .orReg x y => 0x8#4 ++ x ++ y ++ 0x1#4
  | .andReg x y => 0x8#4 ++ x ++ y ++ 0x2#4
  | .xorReg x y => 0x8#4 ++ x ++ y ++ 0x3#4
  | .addReg x y => 0x8#4 ++ x ++ y ++ 0x4#4
  | .subReg x y => 0x8#4 ++ x ++ y ++ 0x5#4
  | .shr x y => 0x8#4 ++ x ++ y ++ 0x6#4
  | .subnReg x y => 0x8#4 ++ x ++ y ++ 0x7#4
  | .shl x y => 0x8#4 ++ x ++ y ++ 0xE#4
  | .sneReg x y => 0x9#4 ++ x ++ y ++ 0x0#4
  | .ldI nnn => 0xA#4 ++ nnn
  | .jpV0 nnn => 0xB#4 ++ nnn
  | .rnd x nn => 0xC#4 ++ x ++ nn
  | .drw x y n => 0xD#4 ++ x ++ y ++ n
  | .ldFromDt x => 0xF#4 ++ x ++ 0x07#8
  | .ldDt x => 0xF#4 ++ x ++ 0x15#8
  | .ldSt x => 0xF#4 ++ x ++ 0x18#8

/-! ## The opcode table (R95) -/

/-- A row of the table: the word `w` is the instruction iff `w & mask = match` (R94, R95); `read` takes the operands
from the word by the row's format (R91). -/
structure OpcodeRow where
  pattern : String
  mtch : Word
  mask : Word
  read : Word → Instr

/-- Rows 1 to 9 of R95. -/
def opcodeRowsFlow : List OpcodeRow := [
  ⟨"00E0", 0x00E0, 0xFFFF, fun _ => .cls⟩,
  ⟨"00EE", 0x00EE, 0xFFFF, fun _ => .ret⟩,
  ⟨"1NNN", 0x1000, 0xF000, fun w => .jp (nnnField w)⟩,
  ⟨"2NNN", 0x2000, 0xF000, fun w => .call (nnnField w)⟩,
  ⟨"3XNN", 0x3000, 0xF000, fun w => .seImm (xField w) (nnField w)⟩,
  ⟨"4XNN", 0x4000, 0xF000, fun w => .sneImm (xField w) (nnField w)⟩,
  ⟨"5XY0", 0x5000, 0xF00F, fun w => .seReg (xField w) (yField w)⟩,
  ⟨"6XNN", 0x6000, 0xF000, fun w => .ldImm (xField w) (nnField w)⟩,
  ⟨"7XNN", 0x7000, 0xF000, fun w => .addImm (xField w) (nnField w)⟩]

/-- Rows 10 to 18 of R95. -/
def opcodeRowsAlu : List OpcodeRow := [
  ⟨"8XY0", 0x8000, 0xF00F, fun w => .ldReg (xField w) (yField w)⟩,
  ⟨"8XY1", 0x8001, 0xF00F, fun w => .orReg (xField w) (yField w)⟩,
  ⟨"8XY2", 0x8002, 0xF00F, fun w => .andReg (xField w) (yField w)⟩,
  ⟨"8XY3", 0x8003, 0xF00F, fun w => .xorReg (xField w) (yField w)⟩,
  ⟨"8XY4", 0x8004, 0xF00F, fun w => .addReg (xField w) (yField w)⟩,
  ⟨"8XY5", 0x8005, 0xF00F, fun w => .subReg (xField w) (yField w)⟩,
  ⟨"8XY6", 0x8006, 0xF00F, fun w => .shr (xField w) (yField w)⟩,
  ⟨"8XY7", 0x8007, 0xF00F, fun w => .subnReg (xField w) (yField w)⟩,
  ⟨"8XYE", 0x800E, 0xF00F, fun w => .shl (xField w) (yField w)⟩]

/-- Rows 19 to 26 of R95. -/
def opcodeRowsRest : List OpcodeRow := [
  ⟨"9XY0", 0x9000, 0xF00F, fun w => .sneReg (xField w) (yField w)⟩,
  ⟨"ANNN", 0xA000, 0xF000, fun w => .ldI (nnnField w)⟩,
  ⟨"BNNN", 0xB000, 0xF000, fun w => .jpV0 (nnnField w)⟩,
  ⟨"CXNN", 0xC000, 0xF000, fun w => .rnd (xField w) (nnField w)⟩,
  ⟨"DXYN", 0xD000, 0xF000, fun w => .drw (xField w) (yField w) (nField w)⟩,
  ⟨"FX07", 0xF007, 0xF0FF, fun w => .ldFromDt (xField w)⟩,
  ⟨"FX15", 0xF015, 0xF0FF, fun w => .ldDt (xField w)⟩,
  ⟨"FX18", 0xF018, 0xF0FF, fun w => .ldSt (xField w)⟩]

/-- The 26 rows of R95 in order. -/
def opcodeTable : List OpcodeRow := opcodeRowsFlow ++ opcodeRowsAlu ++ opcodeRowsRest

/-- The fixed bits of a row decide whether a word selects it (R94). -/
def OpcodeRow.selects (r : OpcodeRow) (w : Word) : Bool := w &&& r.mask == r.mtch

end Sys2Proof
end

