-- ==== Sys2Proof/Machine/Parameters.lean ====
section
/-! DEFINITION. The values of the parameters of 00_scope.md R9 that the machine after `State.reset` has: the spec's defaults,
and for PRNG_SEED, which has none, an unknown legal value. -/

namespace Sys2Proof.Config

/-- PRNG_SEED (R9): some value from 0x04 to 0xFF, the same at every reset (60_exceptions.md R249). The spec gives no
value: DESIGN CHOICE (safe), log entry 3. -/
def prngSeed : Byte := BitVec.ofNat 8 (4 + seedAboveFour.val)

end Sys2Proof.Config

/-! The default of FONT_TABLE (00_scope.md R9, 10_state.md R33): 16 glyphs of 5 bytes, digit d at 0x050 + 5·d, row 0 first. The source
gives digit 0; the other 75 bytes are the spec's default, from general knowledge of CHIP-8. PRESUMED (unsafe), log
entry 5. -/

namespace Sys2Proof.Machine

/-- Digits 0 to 7 of R33. -/
def fontLow : List Byte := [
  0xF0, 0x90, 0x90, 0x90, 0xF0,
  0x20, 0x60, 0x20, 0x20, 0x70,
  0xF0, 0x10, 0xF0, 0x80, 0xF0,
  0xF0, 0x10, 0xF0, 0x10, 0xF0,
  0x90, 0x90, 0xF0, 0x10, 0x10,
  0xF0, 0x80, 0xF0, 0x10, 0xF0,
  0xF0, 0x80, 0xF0, 0x90, 0xF0,
  0xF0, 0x10, 0x20, 0x40, 0x40]

/-- Digits 8 to F of R33. -/
def fontHigh : List Byte := [
  0xF0, 0x90, 0xF0, 0x90, 0xF0,
  0xF0, 0x90, 0xF0, 0x10, 0xF0,
  0xF0, 0x90, 0xF0, 0x90, 0x90,
  0xE0, 0x90, 0xE0, 0x90, 0xE0,
  0xF0, 0x80, 0x80, 0x80, 0xF0,
  0xE0, 0x90, 0x90, 0x90, 0xE0,
  0xF0, 0x80, 0xF0, 0x80, 0xF0,
  0xF0, 0x80, 0xF0, 0x80, 0x80]

/-- The 80 bytes of FONT_TABLE. -/
def fontTable : List Byte := fontLow ++ fontHigh

end Sys2Proof.Machine

/-- The parameters of the machine after `State.reset`. STACK_DEPTH 16: DESIGN CHOICE (unsafe), log entry 4; PRNG_SEED: log
entry 3; FONT_TABLE: log entry 5; CPU_HZ 700: log entry 20. -/
def Sys2Proof.Config.params : Sys2Proof.Params where
  stackDepth := some 16
  prngSeed := prngSeed
  fontTable := Machine.fontTable
  cpuHz := 700
end

