-- ==== Sys2Proof/Machine/State.lean ====
section
/-! DEFINITION. The state of the machine (10_state.md R20: "Nothing else is state"), its fault records (60_exceptions.md
R230), its input events (R250) and the state after reset (10_state.md R34, 70_reset_and_hazards.md R280). -/

namespace Sys2Proof.Machine

/-- The framebuffer: 32 rows of 64 one-bit pixels. Pixel (x, y), which R27 numbers `y·64 + x`, is bit `x` of row `y`. -/
abbrev Frame := Vector (BitVec 64) 32

/-- Memory: the bytes that differ from `Memory.resetByte`, by rising address (canonical form, `Memory.wf` in
Machine/Ops.lean). An address that is not listed reads as `Memory.resetByte`. -/
abbrev Memory := List Host.Cell

/-- A fault record (60_exceptions.md R230). `pc` is the address the faulting instruction was, or was to be, fetched
from; `instr` its word. These are the values of the fault latch (10_state.md R30): a faulting step is a next state in
which the latch is set (R236), log entry 1. -/
inductive FaultRecord where
  /-- Code 1, raised by 00EE with an empty stack (R231). -/
  | stackUnderflow (pc instr : Word)
  /-- Code 2, raised by decode on a word outside the opcode table (R232). -/
  | illegalOpcode (pc instr : Word)
  /-- Code 3, raised by fetch when `pc ≥ 0x0FFF` (R233). -/
  | fetchOutOfRange (pc : Word)
  /-- Code 4, raised by DXYN when a sprite row would lie beyond 0xFFF (R234). -/
  | spriteReadOutOfRange (pc instr addr : Word)
  /-- Code 5, raised by 2NNN when the stack is full (R235). -/
  | stackOverflow (pc instr : Word)
  deriving DecidableEq, Repr

/-- Where the machine is in its start-up order (10_state.md R32). -/
inductive Phase where
  /-- After reset, before the load. -/
  | empty
  /-- After the one permitted load. -/
  | loaded
  /-- From the first CPU step on. -/
  | running
  deriving DecidableEq, Repr

/-- What the host can do to the machine (60_exceptions.md R250, the four input events; R258: nothing else). -/
inductive Event where
  /-- Reset, legal at any time (R253). -/
  | reset
  /-- The bulk copy of a program (R256). -/
  | load (bytes : List Byte)
  /-- Perform one fetch-decode-execute step (R251). -/
  | cpuTick
  /-- Decrement both timers (R252). -/
  | timerTick
  deriving DecidableEq, Repr

/-- The state. Every field but `params` and `inputs` is a row of R20; `sp` is the length of `stack`, as R25
allows. Those two are what R36 calls parameters of the step relation. -/
structure State where
  /-- `x[0]` to `x[15]` (R21); `x[15]` is also the flag (R22). -/
  regs : Vector Byte 16
  /-- The index register (R23). -/
  ri : Word
  /-- The program counter (R24): between steps the address of the next instruction to fetch. -/
  pc : Word
  /-- The call stack (R25), oldest entry first: `stack[0]` to `stack[sp − 1]`. -/
  stack : List Word
  /-- The delay timer (R26). -/
  dt : Byte
  /-- The sound timer (R26). -/
  st : Byte
  /-- The framebuffer (R27). -/
  fb : Frame
  /-- Memory (R28). -/
  mem : Memory
  /-- The state of the pseudo-random source (R29). -/
  lfsr : Byte
  /-- The fault latch (R30). -/
  fault : Option FaultRecord
  /-- The published snapshots (R31), oldest first; the last one is the frame latch. -/
  frames : List Frame
  /-- The start-up phase (R32). -/
  phase : Phase
  /-- The parameters of the machine (00_scope.md R9, R36). No step changes them. The MODEL's own place for them, not the
  spec's. DESIGN CHOICE (safe), log entry 26. -/
  params : Params
  /-- The events still to be delivered, oldest first: the schedule (R36, R259) as plain data. The MODEL's own field,
  not the spec's. When it is empty a step is a CpuTick. DESIGN CHOICE (unsafe), log entry 2. -/
  inputs : List Event
  deriving DecidableEq, Repr

/-- Why a step could stop with a fault. It has NO constructor: every fault of this hardware is one whose entry the spec
describes (R236, the latch is set and nothing else changes), so it is a next state, log entry 1. No meaning ends here. -/
inductive Fault where
  deriving DecidableEq, Repr

/-- Why an instruction has no meaning in the model. -/
inductive Refusal where
  /-- Raised by an arm of `exec` whose instruction has no meaning yet; no arm does. Safe. -/
  | notModelled (mnemonic : String)
  deriving DecidableEq, Repr

/-- The state right after reset (10_state.md R34, 70_reset_and_hazards.md R280). Memory lists nothing: every byte reads
as its reset content. `lfsr` is PRNG_SEED, an open parameter (log entry 3); `params` and `inputs` are the model's own
(log entries 26 and 2). -/
def State.reset : State where
  regs := Vector.replicate 16 0
  ri := 0x0000#16
  pc := 0x0200#16
  stack := []
  dt := 0x00#8
  st := 0x00#8
  fb := Vector.replicate 32 0
  mem := []
  lfsr := Config.params.prngSeed
  fault := none
  frames := []
  phase := .empty
  params := Config.params
  inputs := []

end Sys2Proof.Machine
end

