-- ==== Sys2Proof/Machine/Ops.lean ====
section
/-! DEFINITION. The named operations over memory, registers, program counter, call stack, framebuffer and fault latch
(the primitives of 00_scope.md R12). Meanings are written over these only. -/

namespace Sys2Proof.Machine

/-- The result of one step or one meaning. -/
abbrev Result := Host.Outcome State Fault Refusal

/-! ## Memory (20_memory.md) -/

/-- What an address holds after reset (10_state.md R34, R33; 20_memory.md R61): FONT_TABLE at 0x050 to 0x09F, zero
elsewhere. -/
def initialByte (font : List Byte) (a : Nat) : Byte :=
  if Config.fontBase ≤ a ∧ a < Config.fontBase + Config.fontLen then font.getD (a - Config.fontBase) 0 else 0

/-- What an address that `mem` does not list reads as: the reset content under the spec's default FONT_TABLE. The memory
of a machine with another font lists the font bytes that differ. -/
def Memory.resetByte (a : Nat) : Byte := initialByte fontTable a

/-- The listed byte at an address, if there is one. -/
def Memory.lookup : Memory → Nat → Option Byte
  | [], _ => none
  | (b, v) :: m, a => if b = a then some v else Memory.lookup m a

/-- `mem[a]` (R12), for an address that is in range or whose range the caller has checked. -/
def Memory.read (m : Memory) (a : Nat) : Byte :=
  (m.lookup a).getD (Memory.resetByte a)

/-- `MemRead(a, 1)` (R12): nothing above 0xFFF. -/
def Memory.readByte? (m : Memory) (a : Nat) : Option Byte :=
  if a ≤ Config.maxAddr then some (m.read a) else none

/-- `MemRead(a, 2)` (R12): big-endian, and both bytes must be in memory (R62, R65; decision D8, log entry 12). -/
def Memory.readWord? (m : Memory) (a : Nat) : Option Word :=
  if a + 1 ≤ Config.maxAddr then some (bytesWord (m.read a) (m.read (a + 1))) else none

/-- `MemWrite(a, 1, v)` (R12), keeping the canonical form: the entry goes where it belongs in the order, and a byte
equal to `Memory.resetByte` is not listed. -/
def Memory.write : Memory → Nat → Byte → Memory
  | [], a, v => if v = Memory.resetByte a then [] else [(a, v)]
  | (b, u) :: m, a, v =>
    if a < b then
      if v = Memory.resetByte a then (b, u) :: m else (a, v) :: (b, u) :: m
    else if a = b then
      if v = Memory.resetByte a then m else (a, v) :: m
    else (b, u) :: Memory.write m a v

/-- Bytes to consecutive addresses, in order (70_reset_and_hazards.md R285). -/
def Memory.writeBytes : Memory → Nat → List Byte → Memory
  | m, _, [] => m
  | m, a, v :: vs => Memory.writeBytes (m.write a v) (a + 1) vs

/-- The canonical form: addresses strictly rising and inside memory, no entry equal to what an
unlisted address reads as. -/
abbrev Memory.wf (m : Memory) : Prop :=
  m.Pairwise (fun c d => c.1 < d.1) ∧ ∀ c ∈ m, c.1 ≤ Config.maxAddr ∧ c.2 ≠ Memory.resetByte c.1

/-! ## Registers (10_state.md R21) -/

/-- `x[i]` (R12). -/
def State.reg (s : State) (i : Nibble) : Byte := s.regs[i.toNat]'i.isLt

/-- `x[i] <- v` (R12). No register is hardwired (R21). -/
def State.setReg (s : State) (i : Nibble) (v : Byte) : State :=
  { s with regs := s.regs.set i.toNat v i.isLt }

/-- `ri <- v`. -/
def State.setRi (s : State) (v : Word) : State := { s with ri := v }

/-- `dt <- v`. -/
def State.setDt (s : State) (v : Byte) : State := { s with dt := v }

/-- `st <- v`. -/
def State.setSt (s : State) (v : Byte) : State := { s with st := v }

/-- `lfsr <- v`. -/
def State.setLfsr (s : State) (v : Byte) : State := { s with lfsr := v }

/-! ## Program counter (10_state.md R24, 40_fetch_decode_execute.md R122) -/

/-- `pc <- target`. -/
def State.setPc (s : State) (target : Word) : State := { s with pc := target }

/-- `next_pc` (R12, R122): the address of the instruction plus 2. A meaning starts from the state with `pc` still at its
instruction (log entry 21). -/
def State.nextPc (s : State) : Word := s.pc + 2

/-- The start of every execute phase: `pc <- next_pc` (R122), and from the first CPU step on the phase is Running
(R120; a step that faults keeps neither, log entry 6). -/
def State.advance (s : State) : State := { s with pc := s.nextPc, phase := .running }

/-! ## Call stack (10_state.md R25) -/

/-- `sp` (R12): the number of entries. -/
def State.sp (s : State) : Nat := s.stack.length

/-- The stack is full: it holds STACK_DEPTH entries (R25; never, if STACK_DEPTH is unbounded). -/
def State.stackFull (s : State) : Bool :=
  match s.params.stackDepth with
  | none => false
  | some depth => decide (depth ≤ s.sp)

/-- `push(v)` (R12). -/
def State.push (s : State) (v : Word) : State := { s with stack := s.stack ++ [v] }

/-- The entry `pop()` returns, `stack[sp − 1]`; none when the stack is empty. -/
def State.top? (s : State) : Option Word := s.stack.getLast?

/-- The stack after `pop()`. -/
def State.dropTop (s : State) : State := { s with stack := s.stack.dropLast }

/-! ## Framebuffer and frame output (10_state.md R27, R31) -/

/-- Pixel (px, py); false outside the grid. -/
def Frame.pixel (fb : Frame) (px py : Nat) : Bool :=
  if h : py < Config.fbHeight then fb[py].getLsbD px else false

/-- `fb[i]` by the linear index `i = y·64 + x` of R27. -/
def Frame.bit (fb : Frame) (i : Nat) : Bool := fb.pixel (i % Config.fbWidth) (i / Config.fbWidth)

/-- All pixels off. -/
def Frame.allOff : Frame := Vector.replicate 32 0

/-- `fb <- f`. -/
def State.setFb (s : State) (f : Frame) : State := { s with fb := f }

/-- `publish()` (60_exceptions.md R254): a copy of the framebuffer at the end of the frame sequence. -/
def State.publish (s : State) : State := { s with frames := s.frames ++ [s.fb] }

/-- The frame latch (R31): the last published frame, all-off before the first (R34). -/
def State.frameLatch (s : State) : Frame := s.frames.getLast?.getD Frame.allOff

/-! ## Reset (10_state.md R34, 70_reset_and_hazards.md R280) -/

/-- Memory after reset: `mem <- all 0` then `mem[0x050..0x09F] <- FONT_TABLE` (R280). -/
def initialMemory (p : Params) : Memory := Memory.writeBytes [] Config.fontBase p.fontTable

/-- The reset state of the machine with parameters `p`. `State.reset` is that of `Config.params`. -/
def State.resetTo (p : Params) : State :=
  { State.reset with mem := initialMemory p, lfsr := p.prngSeed, params := p }

/-! ## Taking a fault (60_exceptions.md R230, R236)

There is no return from a fault: the only exit from the halted state is the Reset event (R241). -/

/-- Fault entry, the whole trap mechanism (R236): the record is latched and nothing else changes. `s` is the state
before the step, so `pc` stays at the faulting instruction (decision D6, log entry 11). -/
def State.takeFault (s : State) (r : FaultRecord) : State := { s with fault := some r }

/-- The machine is halted while the latch holds a record (R237). -/
def State.halted (s : State) : Bool := s.fault.isSome

/-- The numeric code of a record (R230; decision D7, log entry 11). -/
def FaultRecord.code : FaultRecord → Nat
  | .stackUnderflow _ _ => 1
  | .illegalOpcode _ _ => 2
  | .fetchOutOfRange _ => 3
  | .spriteReadOutOfRange _ _ _ => 4
  | .stackOverflow _ _ => 5

/-- The `pc` of a record (R230). -/
def FaultRecord.recordPc : FaultRecord → Word
  | .stackUnderflow pc _ => pc
  | .illegalOpcode pc _ => pc
  | .fetchOutOfRange pc => pc
  | .spriteReadOutOfRange pc _ _ => pc
  | .stackOverflow pc _ => pc

/-- `raise` (R12): end the step with a fault, from the state before the step. -/
def State.raise (s : State) (r : FaultRecord) : Result := .next (s.takeFault r)

end Sys2Proof.Machine
end

