-- ==== Sys2Proof/Machine/Flags.lean ====
section
/-! DEFINITION. The flag computations (10_state.md R22): x[F] is the only flag, written as one by 8XY4, 8XY5, 8XY6, 8XY7
and 8XYE, always with 0 or 1; and the two orders in which flag and result are written (R125). -/

namespace Sys2Proof.Machine

/-- A flag value, 0 or 1. -/
def flagByte (b : Bool) : Byte := if b then 1 else 0

/-- Carry of the 9-bit sum: 1 if `a + b` exceeds 255 (42_alu.md R166). -/
def carryFlag (a b : Byte) : Byte := flagByte (decide (255 < a.toNat + b.toNat))

/-- Borrow of `minuend − subtrahend`: 1 if the subtrahend is greater, unsigned (42_alu.md R167, R169, R173). -/
def borrowFlag (minuend subtrahend : Byte) : Byte := flagByte (decide (minuend.toNat < subtrahend.toNat))

/-- The bit a right shift loses, bit 0 (42_alu.md R168). -/
def lowBitFlag (a : Byte) : Byte := flagByte (a.getLsbD 0)

/-- The bit a left shift loses, bit 7 (42_alu.md R170). -/
def highBitFlag (a : Byte) : Byte := flagByte (a.getLsbD 7)

/-- The writes of 8XY4 in the listed order, result and then flag: the flag stays when X = F (R125; decision D2, log
entry 7). -/
def State.writeResultThenFlag (s : State) (x : Nibble) (result flag : Byte) : State :=
  (s.setReg x result).setReg flagIndex flag

/-- The writes of 8XY5, 8XY6, 8XY7 and 8XYE in the listed order, flag and then result: the result stays when X = F
(R125; decision D2, log entry 7). -/
def State.writeFlagThenResult (s : State) (x : Nibble) (flag result : Byte) : State :=
  (s.setReg flagIndex flag).setReg x result

end Sys2Proof.Machine
end

