-- ==== Sys2Proof/Machine/Operands.lean ====
section
/-! DEFINITION. The operand forms (30_encoding.md R91, R92): what an instruction computes from its fields and the state
before it writes anything (40_fetch_decode_execute.md R125). Immediates are zero-extended, never scaled (R92). -/

namespace Sys2Proof.Machine

/-- The target of 1NNN, 2NNN and the value of ANNN: `zext_16(NNN)` (R92). -/
def absoluteTarget (nnn : Addr12) : Word := nnn.toWord

/-- The target of BNNN: `zext_16(x[0]) + zext_16(NNN)`, not reduced mod 4096 (41_flow.md R143). -/
def State.indexedTarget (s : State) (nnn : Addr12) : Word := (s.reg 0).toWord + nnn.toWord

/-- The `pc` a conditional skip leaves: `next_pc + 2` if taken, else `next_pc` (41_flow.md R144). -/
def State.skipTarget (s : State) (taken : Bool) : Word :=
  if taken then s.nextPc + 2 else s.nextPc

/-- The number of rows of DXYN (R92). -/
def rowCount (n : Nibble) : Nat := n.toNat

/-- The start column of DXYN: `x[X] mod 64` (44_display.md R202). -/
def State.startColumn (s : State) (x : Nibble) : Nat := (s.reg x).toNat % Config.fbWidth

/-- The start row of DXYN: `x[Y] mod 32` (44_display.md R202). -/
def State.startRow (s : State) (y : Nibble) : Nat := (s.reg y).toNat % Config.fbHeight

/-- The address of row `r` of the sprite: `ri + r` on mathematical integers (10_state.md R23, 44_display.md R203). -/
def State.spriteAddr (s : State) (r : Nat) : Nat := s.ri.toNat + r

/-- Some row of an `n`-row sprite lies beyond 0xFFF: `n ≥ 1` and `ri + n − 1 > 0xFFF` (44_display.md R204; all rows
count, also clipped ones: decision D9, log entry 12). -/
def State.spriteBeyondMemory (s : State) (n : Nibble) : Bool :=
  decide (1 ≤ rowCount n ∧ Config.maxAddr < s.spriteAddr (rowCount n - 1))

/-- The bytes of an `n`-row sprite, row 0 first (44_display.md R203). -/
def State.spriteRows (s : State) (n : Nibble) : List Byte :=
  (List.range (rowCount n)).map (fun r => s.mem.read (s.spriteAddr r))

end Sys2Proof.Machine
end

