-- ==== Sys2Proof/Machine/Alu.lean ====
section
/-! DEFINITION. Register load, arithmetic, logic and shifts (42_alu.md): 6XNN 7XNN 8XY0 to 8XY7 8XYE. Operands are read
from the state before the step (40_fetch_decode_execute.md R125); `BitVec` addition and subtraction are modulo 256,
the spec's `trunc8` (R171). -/

namespace Sys2Proof.Machine

/-- 6XNN (R160). -/
def execLdImm (x : Nibble) (nn : Byte) (s : State) : Result :=
  .next (s.advance.setReg x nn)

/-- 7XNN (R161): no flag. -/
def execAddImm (x : Nibble) (nn : Byte) (s : State) : Result :=
  .next (s.advance.setReg x (s.reg x + nn))

/-- 8XY0 (R162). -/
def execLdReg (x y : Nibble) (s : State) : Result :=
  .next (s.advance.setReg x (s.reg y))

/-- 8XY1 (R163): no flag. -/
def execOrReg (x y : Nibble) (s : State) : Result :=
  .next (s.advance.setReg x (s.reg x ||| s.reg y))

/-- 8XY2 (R164): no flag. -/
def execAndReg (x y : Nibble) (s : State) : Result :=
  .next (s.advance.setReg x (s.reg x &&& s.reg y))

/-- 8XY3 (R165): no flag. -/
def execXorReg (x y : Nibble) (s : State) : Result :=
  .next (s.advance.setReg x (s.reg x ^^^ s.reg y))

/-- 8XY4 (R166): the sum, then the carry. -/
def execAddReg (x y : Nibble) (s : State) : Result :=
  .next (s.advance.writeResultThenFlag x (s.reg x + s.reg y) (carryFlag (s.reg x) (s.reg y)))

/-- 8XY5 (R167): the borrow, then `x[X] − x[Y]`. -/
def execSubReg (x y : Nibble) (s : State) : Result :=
  .next (s.advance.writeFlagThenResult x (borrowFlag (s.reg x) (s.reg y)) (s.reg x - s.reg y))

/-- 8XY6 (R168): bit 0, then the logical right shift by one of `x[X]` in place; Y is ignored (30_encoding.md R93). -/
def execShr (x : Nibble) (s : State) : Result :=
  .next (s.advance.writeFlagThenResult x (lowBitFlag (s.reg x)) (s.reg x >>> 1))

/-- 8XY7 (R169): the borrow, then `x[Y] − x[X]`. -/
def execSubnReg (x y : Nibble) (s : State) : Result :=
  .next (s.advance.writeFlagThenResult x (borrowFlag (s.reg y) (s.reg x)) (s.reg y - s.reg x))

/-- 8XYE (R170): bit 7, then the left shift by one of `x[X]` in place; Y is ignored (30_encoding.md R93). -/
def execShl (x : Nibble) (s : State) : Result :=
  .next (s.advance.writeFlagThenResult x (highBitFlag (s.reg x)) (s.reg x <<< 1))

end Sys2Proof.Machine
end

