-- ==== Sys2Proof/Machine/Display.lean ====
section
/-! DEFINITION. Display (44_display.md): 00E0 DXYN. A sprite is XORed pixel by pixel, clipped at the right and bottom
edges (R205; decision D4, log entry 9); x[F] is not written (R207; decision D3, log entry 8); each successful execution
publishes exactly once (R208; decision D12, log entry 14). -/

namespace Sys2Proof.Machine

/-- Toggle pixel (px, py) if it lies on the grid, else nothing (R205). -/
def Frame.toggle (fb : Frame) (px py : Nat) : Frame :=
  if h : px < Config.fbWidth ∧ py < Config.fbHeight then
    fb.set py (fb[py]'h.2 ^^^ BitVec.twoPow 64 px) h.2
  else fb

/-- One pixel of a row: a 1 bit toggles, a 0 bit leaves (R203). Column offset `c` is bit 7 − c of the byte. -/
def Frame.xorPixel (fb : Frame) (byte : Byte) (x0 py c : Nat) : Frame :=
  if byte.getLsbD (7 - c) then fb.toggle (x0 + c) py else fb

/-- One sprite row at column `x0` of row `py`, column offsets 0 to 7 (R201). -/
def Frame.xorRow (fb : Frame) (byte : Byte) (x0 py : Nat) : Frame :=
  (List.range 8).foldl (fun f c => f.xorPixel byte x0 py c) fb

/-- The rows of a sprite from `py` downwards (R201). -/
def Frame.xorSprite (fb : Frame) (x0 : Nat) : (py : Nat) → List Byte → Frame
  | _, [] => fb
  | py, byte :: rows => Frame.xorSprite (fb.xorRow byte x0 py) x0 (py + 1) rows

/-- 00E0 (R200): all pixels off, publish. -/
def execCls (s : State) : Result :=
  .next (s.advance.setFb Frame.allOff).publish

/-- DXYN (R201): the range check before any change (R204; decision D9, log entry 12), the XOR of `n` rows, publish.
With `n = 0` nothing is read or drawn and one frame is published (R206; decision D21, log entry 22). -/
def execDrw (x y n : Nibble) (s : State) : Result :=
  if s.spriteBeyondMemory n then
    s.raise (.spriteReadOutOfRange s.pc (encode (.drw x y n)) 0x1000#16)
  else
    .next (s.advance.setFb (s.fb.xorSprite (s.startColumn x) (s.startRow y) (s.spriteRows n))).publish

end Sys2Proof.Machine
end

