-- ==== Sys2Proof/Machine/Flow.lean ====
section
/-! DEFINITION. Control transfer (41_flow.md): 00EE 1NNN 2NNN BNNN 3XNN 4XNN 5XY0 9XY0. Each meaning starts from the
state with `pc` at its instruction and advances it itself (log entry 21). -/

namespace Sys2Proof.Machine

/-- 00EE (R140): pop into `pc`; StackUnderflow when the stack is empty (R231). -/
def execRet (s : State) : Result :=
  match s.top? with
  | none => s.raise (.stackUnderflow s.pc (encode .ret))
  | some target => .next (s.advance.dropTop.setPc target)

/-- 1NNN (R141). -/
def execJp (nnn : Addr12) (s : State) : Result :=
  .next (s.advance.setPc (absoluteTarget nnn))

/-- 2NNN (R142): push `next_pc`, jump; StackOverflow when the stack is full (R235; decision D1, log entry 4). -/
def execCall (nnn : Addr12) (s : State) : Result :=
  if s.stackFull then s.raise (.stackOverflow s.pc (encode (.call nnn)))
  else .next ((s.advance.push s.nextPc).setPc (absoluteTarget nnn))

/-- BNNN (R143). -/
def execJpV0 (nnn : Addr12) (s : State) : Result :=
  .next (s.advance.setPc (s.indexedTarget nnn))

/-- 3XNN (R144). -/
def execSeImm (x : Nibble) (nn : Byte) (s : State) : Result :=
  .next (s.advance.setPc (s.skipTarget (decide (s.reg x = nn))))

/-- 4XNN (R145). -/
def execSneImm (x : Nibble) (nn : Byte) (s : State) : Result :=
  .next (s.advance.setPc (s.skipTarget (decide (s.reg x ≠ nn))))

/-- 5XY0 (R146). -/
def execSeReg (x y : Nibble) (s : State) : Result :=
  .next (s.advance.setPc (s.skipTarget (decide (s.reg x = s.reg y))))

/-- 9XY0 (R147). -/
def execSneReg (x y : Nibble) (s : State) : Result :=
  .next (s.advance.setPc (s.skipTarget (decide (s.reg x ≠ s.reg y))))

end Sys2Proof.Machine
end

