-- ==== Sys2Proof/Machine/IndexRandom.lean ====
section
/-! DEFINITION. Index load and random (43_index_random.md): ANNN CXNN, and the LFSR step (60_exceptions.md R247). -/

namespace Sys2Proof.Machine

/-- The new bit of the LFSR: bits 7, 5, 4 and 2 XORed (R247; the taps win over the "never zero" sentence,
90_conflicts.md C1, log entry 24). -/
def lfsrNewBit (s : Byte) : Bool :=
  s.getLsbD 7 ^^ s.getLsbD 5 ^^ s.getLsbD 4 ^^ s.getLsbD 2

/-- `lfsr_step` (R247): the new bit into position 7, the rest shifted right by one, old bit 0 dropped. -/
def lfsrStep (s : Byte) : Byte :=
  (if lfsrNewBit s then 0x80#8 else 0x00#8) ||| (s >>> 1)

/-- ANNN (R190): no check here, the check is at the sprite read. -/
def execLdI (nnn : Addr12) (s : State) : Result :=
  .next (s.advance.setRi (absoluteTarget nnn))

/-- CXNN (R191): one LFSR step; the byte delivered is the state after it (decision D10, log entry 13). -/
def execRnd (x : Nibble) (nn : Byte) (s : State) : Result :=
  .next ((s.advance.setLfsr (lfsrStep s.lfsr)).setReg x (lfsrStep s.lfsr &&& nn))

end Sys2Proof.Machine
end

