-- ==== Sys2Proof/Machine/TimerAccess.lean ====
section
/-! DEFINITION. Timer access (45_timer_access.md): FX07 FX15 FX18. -/

namespace Sys2Proof.Machine

/-- FX07 (R220). -/
def execLdFromDt (x : Nibble) (s : State) : Result :=
  .next (s.advance.setReg x s.dt)

/-- FX15 (R221). -/
def execLdDt (x : Nibble) (s : State) : Result :=
  .next (s.advance.setDt (s.reg x))

/-- FX18 (R222): the only consequence is the value of `st` (10_state.md R26). -/
def execLdSt (x : Nibble) (s : State) : Result :=
  .next (s.advance.setSt (s.reg x))

end Sys2Proof.Machine
end

