-- ==== Sys2Proof/Machine/Scheduler.lean ====
section
/-! DEFINITION. The TimerScheduler and the host's load (60_exceptions.md R243, R245, R256; 70_reset_and_hazards.md R280,
R281, R285). -/

namespace Sys2Proof.Machine

/-- A counter that saturates at 0 (10_state.md R26). -/
def saturatingPred (v : Byte) : Byte := if v = 0 then 0 else v - 1

/-- The timer tick (R245): both timers, each by its own value; nothing while the machine is halted (R237; decision D13,
log entry 15). -/
def State.timerTick (s : State) : State :=
  if s.halted then s else (s.setDt (saturatingPred s.dt)).setSt (saturatingPred s.st)

/-- When a load is accepted (R285; decision D14, log entry 16). -/
def State.loadAccepted (s : State) (bytes : List Byte) : Bool :=
  decide (s.phase = .empty) && !s.halted && programFits bytes

/-- The host load (R285): the bytes verbatim from 0x200 upwards, phase Loaded. A refused load changes nothing. -/
def State.hostLoad (s : State) (bytes : List Byte) : State :=
  if s.loadAccepted bytes then
    { s with mem := s.mem.writeBytes Config.progBase bytes, phase := .loaded }
  else s

/-- The Reset event (R280, R281): every piece of the spec's state to its reset value, from any state. The parameters
are the machine's and stay; the events still to be delivered are the environment's and stay (log entry 18). -/
def State.resetEvent (s : State) : State := { State.resetTo s.params with inputs := s.inputs }

end Sys2Proof.Machine
end

