-- ==== Sys2Proof/Machine/Cycle.lean ====
section
/-! DEFINITION. The fetch-decode-execute cycle (40_fetch_decode_execute.md) and the delivery of the host's events
(60_exceptions.md R250, R259). Step.lean only calls these. -/

namespace Sys2Proof.Machine

/-- Fetch (R121): the two bytes at `pc` and `pc + 1`, big-endian; none if one of them is not in memory. -/
def State.fetch (s : State) : Option Word := s.mem.readWord? s.pc.toNat

/-- One fetch-decode-execute step (R120 to R124). The checks are sequential, fetch range, decode, execute
(60_exceptions.md R239). -/
def State.cpuStep (s : State) : Result :=
  match s.fetch with
  | none => s.raise (.fetchOutOfRange s.pc)
  | some w =>
    match decodeWord w with
    | .error _ => s.raise (.illegalOpcode s.pc w)
    | .ok i => exec i s

/-- A CpuTick (R251): one step, or nothing while the machine is halted (R237). -/
def State.cpuTick (s : State) : Result :=
  if s.halted then .next s else s.cpuStep

/-- Delivery of one event (R250). -/
def deliver (e : Event) (s : State) : Result :=
  match e with
  | .reset => .next s.resetEvent
  | .load bytes => .next (s.hostLoad bytes)
  | .cpuTick => s.cpuTick
  | .timerTick => .next s.timerTick

/-- The next event of the schedule (R259): the oldest one listed, which is then no longer listed; a CpuTick when none is
listed (log entry 2). -/
def State.nextEvent (s : State) : Event × State :=
  match s.inputs with
  | [] => (.cpuTick, s)
  | e :: rest => (e, { s with inputs := rest })

/-- The address `placeWord` stores at: `pc` if an instruction can be fetched there, else the program base. -/
def State.placeAddr (s : State) : Word :=
  if s.pc.toNat + 1 ≤ Config.maxAddr then s.pc else BitVec.ofNat 16 Config.progBase

/-- The state in which the next event is a CpuTick that fetches exactly `w`: the word at the fetch address, no fault
latched, the other listed events after that tick (log entry 19). -/
def State.placeWord (s : State) (w : Word) : State :=
  { s with
    mem := s.mem.writeBytes s.placeAddr.toNat (wordBytes w)
    pc := s.placeAddr
    fault := none
    inputs := if s.inputs.isEmpty then [] else .cpuTick :: s.inputs }

end Sys2Proof.Machine
end

