-- ==== Sys2Proof/Machine/Step.lean ====
section
/-! DEFINITION. One step of the machine: the delivery of the next event of its schedule (60_exceptions.md R259). -/

namespace Sys2Proof.Machine

/-- Deliver the next event. With no event listed this is one CpuTick (log entry 2). -/
def step (s : State) : Host.Outcome State Fault Refusal :=
  deliver s.nextEvent.1 s.nextEvent.2

/-- The state whose next step fetches and runs the table word `w` (log entry 19). -/
def State.withFetchWord (s : State) (nbits w : Nat) : State :=
  s.placeWord (tableWord nbits w)

end Sys2Proof.Machine
end

