-- ==== Sys2Proof/Safety.lean ====
section
/-! DEFINITION. The terms the statements use: what a step leaves unchanged, which bit a sprite XORs into a pixel, which
instructions publish or fault, the invariant of 10_state.md R35, launched and idle states. -/

namespace Sys2Proof.Machine

/-! ## Frames: what is left unchanged -/

/-- The parts of State, one per field. -/
inductive StatePart where
  | regs | ri | pc | stack | dt | st | fb | mem | lfsr | fault | frames | phase | params | inputs
  deriving DecidableEq, Repr

/-- `t` has the part as `s` has it. Memory is compared byte by byte, at every address, registers one by one. -/
def StatePart.same : StatePart → State → State → Prop
  | .regs, s, t => ∀ r, t.reg r = s.reg r
  | .ri, s, t => t.ri = s.ri
  | .pc, s, t => t.pc = s.pc
  | .stack, s, t => t.stack = s.stack
  | .dt, s, t => t.dt = s.dt
  | .st, s, t => t.st = s.st
  | .fb, s, t => t.fb = s.fb
  | .mem, s, t => ∀ a, t.mem.read a = s.mem.read a
  | .lfsr, s, t => t.lfsr = s.lfsr
  | .fault, s, t => t.fault = s.fault
  | .frames, s, t => t.frames = s.frames
  | .phase, s, t => t.phase = s.phase
  | .params, s, t => t.params = s.params
  | .inputs, s, t => t.inputs = s.inputs

/-- Every part but the listed ones is unchanged from `s` to `t`. -/
def KeepsAllBut (changed : List StatePart) (s t : State) : Prop :=
  ∀ p, p ∉ changed → p.same s t

/-- Every register but the listed ones is unchanged from `s` to `t`. -/
def KeepsRegsBut (changed : List Nibble) (s t : State) : Prop :=
  ∀ r, r ∉ changed → t.reg r = s.reg r

end Sys2Proof.Machine

namespace Sys2Proof

/-! ## What instructions do, by kind -/

/-- The instructions that publish a frame (44_display.md R208). -/
def Instr.publishes : Instr → Bool
  | .cls => true
  | .drw _ _ _ => true
  | _ => false

/-- The register an instruction's X field names as its destination, if it has one (42_alu.md, 43_index_random.md R191,
45_timer_access.md R220). -/
def Instr.destination : Instr → Option Nibble
  | .ldImm x _ => some x
  | .addImm x _ => some x
  | .ldReg x _ => some x
  | .orReg x _ => some x
  | .andReg x _ => some x
  | .xorReg x _ => some x
  | .addReg x _ => some x
  | .subReg x _ => some x
  | .shr x _ => some x
  | .subnReg x _ => some x
  | .shl x _ => some x
  | .rnd x _ => some x
  | .ldFromDt x => some x
  | _ => none

/-- The five instructions that write x[F] as a flag (10_state.md R22). -/
def Instr.writesFlag : Instr → Bool
  | .addReg _ _ => true
  | .subReg _ _ => true
  | .shr _ _ => true
  | .subnReg _ _ => true
  | .shl _ _ => true
  | _ => false

/-- The instructions that reach a timer (45_timer_access.md). -/
def Instr.reachesTimer : Instr → Bool
  | .ldFromDt _ => true
  | .ldDt _ => true
  | .ldSt _ => true
  | _ => false

end Sys2Proof

namespace Sys2Proof.Machine

/-! ## Words and pixels -/

/-- A word no row of the opcode table matches (30_encoding.md R94, R99). -/
def Unrecognized (w : Word) : Prop := ∀ r ∈ opcodeTable, r.selects w = false

/-- The word at the program counter, if the two bytes there are in memory (40_fetch_decode_execute.md R121). -/
def State.wordAtPc (s : State) : Word := bytesWord (s.mem.read s.pc.toNat) (s.mem.read (s.pc.toNat + 1))

/-- Both bytes of the next instruction are in memory (R121). -/
def State.canFetch (s : State) : Prop := s.pc.toNat < 0xFFF

/-- The bit that a sprite of `rows` rows at `mem[base]`, drawn with its top left pixel at (x0, y0), XORs into pixel
(px, py): bit 7 − c of row r for the pixel at column offset c and row offset r (44_display.md R201, R203). -/
def spriteBit (m : Memory) (base x0 y0 rows px py : Nat) : Bool :=
  decide (x0 ≤ px ∧ px < x0 + 8 ∧ y0 ≤ py ∧ py < y0 + rows)
    && (m.read (base + (py - y0))).getLsbD (7 - (px - x0))

/-- The sprite of DXYN lies inside memory (44_display.md R204). -/
def State.spriteInMemory (s : State) (n : Nibble) : Prop := n.toNat = 0 ∨ s.ri.toNat + n.toNat - 1 ≤ 0xFFF

/-- `k` applications of the LFSR step. -/
def lfsrIterate : Nat → Byte → Byte
  | 0, s => s
  | k + 1, s => lfsrIterate k (lfsrStep s)

/-! ## States -/

/-- The next event of `s` is a CpuTick, listed or implied by an empty list, and `u` is `s` with it taken off (log
entry 2). -/
def State.TickNext (s u : State) : Prop :=
  (s.inputs = [] ∧ u = s) ∨ ∃ rest, s.inputs = .cpuTick :: rest ∧ u = { s with inputs := rest }

/-- A push fits: the stack holds fewer than STACK_DEPTH entries, if STACK_DEPTH is bounded (10_state.md R25). -/
def State.hasRoom (s : State) : Prop := ∀ depth, s.params.stackDepth = some depth → s.stack.length < depth

/-- What holds in every state reachable from reset (10_state.md R35), with what the model adds: memory in canonical form
and the frame latch equal to the framebuffer. -/
structure State.Inv (s : State) : Prop where
  /-- `ri ≤ 0x0FFF`. -/
  ri_le : s.ri.toNat ≤ 0x0FFF
  /-- `pc ≤ 0x10FE`. -/
  pc_le : s.pc.toNat ≤ 0x10FE
  /-- The parameters are legal. -/
  legal : s.params.legal = true
  /-- `sp ≤ STACK_DEPTH`. -/
  sp_le : ∀ depth, s.params.stackDepth = some depth → s.sp ≤ depth
  /-- Every valid stack entry is at most 0x1000. -/
  entries_le : ∀ v ∈ s.stack, v.toNat ≤ 0x1000
  /-- Memory is in canonical form. -/
  mem_wf : s.mem.wf
  /-- Below 0x200 memory is as after reset: the font, zero elsewhere. -/
  low_mem : ∀ a, a < 0x200 → s.mem.read a = initialByte s.params.fontTable a
  /-- The LFSR is in its legal range, so it is never 0. -/
  lfsr_ge : 4 ≤ s.lfsr.toNat
  /-- What was published last is what the framebuffer holds. -/
  latch : s.frameLatch = s.fb
  /-- A latched fault names the address at which the machine stopped. -/
  fault_pc : ∀ r, s.fault = some r → r.recordPc = s.pc
  /-- Before the load memory is as after reset. -/
  unloaded : s.phase = .empty → s.mem = initialMemory s.params

/-- The launch state of a program on the machine with parameters `p` (70_reset_and_hazards.md R287): reset, then its
load. -/
def State.launched (p : Params) (program : List Byte) : State := (State.resetTo p).hostLoad program

/-- An idle point (60_exceptions.md R262): `pc` addresses a 1NNN with NNN = `pc`. -/
def State.idlePoint (s : State) : Prop :=
  s.fault = none ∧ s.canFetch ∧ ∃ nnn : Addr12, decodeWord s.wordAtPc = .ok (.jp nnn) ∧ nnn.toWord = s.pc

/-- A safe run never latches a fault: the machine is not halted. -/
def State.safe (s : State) : Prop := s.fault = none

end Sys2Proof.Machine
end

