-- ==== Sys2Proof/Certificates/Slice0/Obligations.lean ====
section
/-! DEFINITION. The statements for the provers. An instruction is run by `exec` from the state with `pc` still at the
instruction (log entry 21). Frames: `KeepsAllBut` names the parts that may change, `KeepsRegsBut` the registers. -/

open Sys2Proof Sys2Proof.Machine

/-- A few words written out from the opcode table decode to their instructions. One word per format and per sub-
dispatch, written bit by bit from the encoding column of the opcode table, decodes to the instruction it stands for;
four words outside the table are rejected as unrecognized. That those four are rejected rests on the spec's decision
D5, exact match of every fixed digit (a choice, log entry 10). (Derived: 30_encoding.md section 3,
opcode_table.json, 92_eei_decisions.md D5.) -/
def Obligations.SampleWordsDecode : Prop :=
  decodeWord 0b0000000011100000#16 = .ok .cls ∧
  decodeWord 0b0000000011101110#16 = .ok .ret ∧
  decodeWord 0b0010001000001110#16 = .ok (.call 0x20E#12) ∧
  decodeWord 0b0110101000000011#16 = .ok (.ldImm 0xA#4 0x03#8) ∧
  decodeWord 0b1000101010110100#16 = .ok (.addReg 0xA#4 0xB#4) ∧
  decodeWord 0b1000010000001110#16 = .ok (.shl 0x4#4 0x0#4) ∧
  decodeWord 0b1101000100101010#16 = .ok (.drw 0x1#4 0x2#4 0xA#4) ∧
  decodeWord 0b1111101000010101#16 = .ok (.ldDt 0xA#4) ∧
  decodeWord 0x5121#16 = .error (.unrecognizedOpcode 0x5121#16) ∧
  decodeWord 0x8128#16 = .error (.unrecognizedOpcode 0x8128#16) ∧
  decodeWord 0xE09E#16 = .error (.unrecognizedOpcode 0xE09E#16) ∧
  decodeWord 0xF00A#16 = .error (.unrecognizedOpcode 0xF00A#16)

/-- Decoding the word of any instruction gives that instruction back. For every instruction, with every operand at every
value its field admits, decoding its word answers that instruction: no bit of an encoding is dropped. (Derived:
30_encoding.md sections 1 to 3.) -/
def Obligations.DecodeOfEncodeIsTheInstruction : Prop :=
  ∀ i : Instr, decodeWord (encode i) = .ok i

/-- Every recognized word is the word of the instruction it decodes to. If a word decodes to an instruction, that
instruction encodes to the same word: each word has one meaning and no recognized word shares an instruction with
another. That no second word decodes to the same instruction (5XY1 as 5XY0) rests on the spec's decision D5, exact
match of every fixed digit (a choice, log entry 10). (Derived: 30_encoding.md section 3, 92_eei_decisions.md D5.) -/
def Obligations.EncodeOfDecodeIsTheWord : Prop :=
  ∀ (w : Word) (i : Instr), decodeWord w = .ok i → encode i = w

/-- A word decodes by exactly the row whose match and mask it meets. For every word and every row of the table of 26
rows: the word decodes to the instruction that row reads from it iff (w & mask) = match; a word no row matches is
rejected as unrecognized. Exact match, and so the rejection of every other word, is the spec's decision D5 (a
choice, log entry 10). (Derived: 30_encoding.md section 3, 92_eei_decisions.md D5.) -/
def Obligations.DecodeMatchesOpcodeTable : Prop :=
  opcodeTable.length = 26 ∧
  ∀ w : Word,
    (∀ row ∈ opcodeTable, decodeWord w = .ok (row.read w) ↔ w &&& row.mask = row.mtch) ∧
    ((∀ row ∈ opcodeTable, w &&& row.mask ≠ row.mtch) → decodeWord w = .error (.unrecognizedOpcode w))

/-- No word matches two rows of the opcode table. Any two different rows of the opcode table match no word in common.
That every fixed digit counts is the spec's decision D5 (a choice, log entry 10). (Derived: 30_encoding.md section
3, 92_eei_decisions.md D5.) -/
def Obligations.OpcodeRowsAreDisjoint : Prop :=
  opcodeTable.Pairwise (fun row other => ∀ w : Word, ¬ (row.selects w = true ∧ other.selects w = true))

/-- Reset leaves every piece of state at its stated value, whatever the parameters. For all legal parameters p, the
reset state of the machine with parameters p: pc = 0x200, ri = 0, every register 0, stack empty, both timers 0,
every pixel off, memory equal to FONT_TABLE at 0x050 to 0x09F (digit 0 is F0 90 90 90 F0) and 0 at every other
address, no fault, no frame, phase Empty, and lfsr = PRNG_SEED, a value in 0x04 to 0xFF. State.reset is that state
for Config.params, which are legal: STACK_DEPTH 16 (log entry 4), the spec's default font, whose digits 1 to F are
from general knowledge (log entry 5), a seed the spec leaves open (log entry 3), and CPU_HZ 700 (log entry 20). That
the parameters stand in the state is the model's own (log entry 26). (Derived: 70_reset_and_hazards.md section 1,
10_state.md section 11, 00_scope.md section 4, 92_eei_decisions.md D1, D6, D11, D14, D17, D18.) -/
def Obligations.ResetLeavesTheStatedValues : Prop :=
  State.resetTo Config.params = State.reset ∧ Config.params.legal = true ∧
  Config.params.stackDepth = some 16 ∧ Config.params.fontTable = fontTable ∧ Config.params.cpuHz = 700 ∧
  ∀ p : Params, p.legal = true →
    (State.resetTo p).params = p ∧
    (State.resetTo p).pc = 0x0200#16 ∧ (State.resetTo p).ri = 0#16 ∧ (∀ r, (State.resetTo p).reg r = 0#8) ∧
    (State.resetTo p).stack = [] ∧ (State.resetTo p).sp = 0 ∧ (State.resetTo p).dt = 0#8 ∧
    (State.resetTo p).st = 0#8 ∧ (∀ k, k < 2048 → (State.resetTo p).fb.bit k = false) ∧
    (State.resetTo p).mem.read 0x050 = 0xF0#8 ∧ (State.resetTo p).mem.read 0x051 = 0x90#8 ∧
    (State.resetTo p).mem.read 0x052 = 0x90#8 ∧ (State.resetTo p).mem.read 0x053 = 0x90#8 ∧
    (State.resetTo p).mem.read 0x054 = 0xF0#8 ∧
    (∀ k, k < 80 → p.fontTable[k]? = some ((State.resetTo p).mem.read (0x050 + k))) ∧
    (∀ a, a < 0x050 ∨ 0x0A0 ≤ a → (State.resetTo p).mem.read a = 0#8) ∧
    (State.resetTo p).fault = none ∧ (State.resetTo p).frames = [] ∧ (State.resetTo p).phase = .empty ∧
    (State.resetTo p).lfsr = p.prngSeed ∧ 4 ≤ p.prngSeed.toNat

/-- A Reset event gives the reset state from any state, halted or not. Whatever the state, halted or not and in any
phase, a step that delivers a Reset event answers the reset state of the same machine (its parameters kept), with
only the events still to be delivered kept (the model's choice, log entry 18). That reset is allowed at any time and
clears everything is the spec's decision D19 (a choice, log entry 18). On a machine with the parameters of
State.reset it answers State.reset. (Derived: 70_reset_and_hazards.md section 1, 92_eei_decisions.md D19.) -/
def Obligations.ResetEventAlwaysGivesResetState : Prop :=
  ∀ (s : State) (rest : List Event), s.inputs = .reset :: rest →
    step s = .next { State.resetTo s.params with inputs := rest } ∧
    (s.params = Config.params → step s = .next { State.reset with inputs := rest })

/-- A step of a machine that is not halted runs the instruction at pc. If no fault is latched, both bytes at pc are in
memory and they decode to i, then a step with no event listed is exec of i at that state, and a step whose oldest
event is a CpuTick is exec of i at the state with that event taken off (the event list is the model's own, log entry
2). (Derived: 40_fetch_decode_execute.md, 60_exceptions.md section 5.) -/
def Obligations.StepRunsTheDecodedInstruction : Prop :=
  ∀ (s : State) (i : Instr), s.fault = none → s.pc.toNat < 0xFFF →
    decodeWord (bytesWord (s.mem.read s.pc.toNat) (s.mem.read (s.pc.toNat + 1))) = .ok i →
    (s.inputs = [] → step s = exec i s) ∧
    (∀ rest, s.inputs = .cpuTick :: rest → step s = exec i { s with inputs := rest })

/-- Fetch reads two bytes, the one at pc as the high byte. When pc is below 0xFFF fetch gives a word whose bits 15 to 8
are the byte at pc and whose bits 7 to 0 are the byte at pc + 1; odd and even pc alike. (Derived: 20_memory.md
section 2, 40_fetch_decode_execute.md.) -/
def Obligations.FetchIsBigEndian : Prop :=
  ∀ s : State, s.pc.toNat < 0xFFF →
    ∃ w, s.fetch = some w ∧ w.extractLsb' 8 8 = s.mem.read s.pc.toNat ∧
      w.extractLsb' 0 8 = s.mem.read (s.pc.toNat + 1)

/-- A fetch with pc at or above 0xFFF latches FetchOutOfRange and changes nothing else. For every state with no fault
whose next event is a CpuTick, listed or implied by an empty list, if pc is 0xFFF or more, a step answers the same
state with FetchOutOfRange(pc) latched and a listed tick taken off the list (the model's own field, log entry 2).
That pc = 0xFFF faults is the spec's decision D8 (a choice, log entry 12), that nothing else changes its decision D6
(a choice, log entry 11). (Derived: 60_exceptions.md section 1, 92_eei_decisions.md D6, D8.) -/
def Obligations.FetchBeyondMemoryFaults : Prop :=
  ∀ s u : State, s.TickNext u → s.fault = none → 0xFFF ≤ s.pc.toNat →
    step s = .next { u with fault := some (.fetchOutOfRange s.pc) }

/-- A word no row of the table matches latches IllegalOpcode with pc and word, and changes nothing else. For every state
with no fault whose next event is a CpuTick, listed or implied by an empty list, with pc in memory: if no row of the
opcode table matches the word at pc, a step answers the same state with IllegalOpcode(pc, word) latched and a listed
tick taken off the list (the model's own field, log entry 2); the word 0x0000 is such a word. Which words are
unrecognized is the spec's decision D5 (a choice, log entry 10), that nothing else changes its decision D6 (a
choice, log entry 11). (Derived: 30_encoding.md section 3, 60_exceptions.md section 1, 92_eei_decisions.md D5, D6.) -/
def Obligations.UnrecognizedWordFaults : Prop :=
  (∀ s u : State, s.TickNext u → s.fault = none → s.pc.toNat < 0xFFF →
    (∀ row ∈ opcodeTable, s.wordAtPc &&& row.mask ≠ row.mtch) →
    step s = .next { u with fault := some (.illegalOpcode s.pc s.wordAtPc) }) ∧
  (∀ row ∈ opcodeTable, 0x0000#16 &&& row.mask ≠ row.mtch)

/-- Right after reset, with nothing loaded, a step latches IllegalOpcode(0x200, 0x0000). A step of the reset state
fetches 0x0000 from 0x200 and answers the reset state with IllegalOpcode(0x0200, 0x0000) latched, on the machine of
State.reset and on every machine with legal parameters. That nothing but the latch changes is the spec's decision D6
(a choice, log entry 11), that the phase too stays as it is (Empty) the model's reading (log entry 6). (Derived:
70_reset_and_hazards.md section 2, 92_eei_decisions.md D6.) -/
def Obligations.RunWithoutLoadFaultsAtOnce : Prop :=
  step State.reset = .next { State.reset with fault := some (.illegalOpcode 0x0200#16 0x0000#16) } ∧
  ∀ p : Params, p.legal = true →
    step (State.resetTo p) = .next { State.resetTo p with fault := some (.illegalOpcode 0x0200#16 0x0000#16) }

/-- A CPU step ends in a new state or in the old state with the fault latch set. For every state s with no fault whose
next event is a CpuTick, listed or implied by an empty list, and u that state with a listed tick taken off (the
model's own field, log entry 2): a step answers a next state t, and either t has no fault and is the result of the
instruction at pc from u, which appended t's framebuffer to frames exactly once if it is 00E0 or DXYN and left
frames alone otherwise; or t is u with a record latched. There is no other outcome. That a fault changes nothing but
the latch is the spec's decision D6 (a choice, log entry 11), that each completed 00E0 and DXYN publishes exactly
once its decision D12 (a choice, log entry 14). (Derived: 40_fetch_decode_execute.md, 60_exceptions.md section 1,
92_eei_decisions.md D6, D12.) -/
def Obligations.StepOutcomeIsCompletionOrPreciseFault : Prop :=
  ∀ s u : State, s.TickNext u → s.fault = none →
    ∃ t, step s = .next t ∧
      ((t.fault = none ∧ ∃ i, decodeWord s.wordAtPc = .ok i ∧ exec i u = .next t ∧
          t.frames = if i.publishes then s.frames ++ [t.fb] else s.frames) ∨
        ∃ r, t = { u with fault := some r })

/-- No step of the machine stops or changes its parameters: every step and every instruction answers a next state. For
every state, whatever event is next, step answers a next state with the same parameters, and so does exec for every
instruction: the model has no fault outcome and no refusal (a fault is a next state with the latch set, the model's
choice, log entry 1), and the parameters of 00_scope.md R9 are fixed for the machine, reset included (log entry 26).
(Derived: 40_fetch_decode_execute.md, 60_exceptions.md section 1, 00_scope.md section 4, 10_state.md section 12.) -/
def Obligations.EveryStepAnswersANextState : Prop :=
  (∀ s : State, ∃ t, step s = .next t ∧ t.params = s.params) ∧
  (∀ (i : Instr) (s : State), ∃ t, exec i s = .next t ∧ t.params = s.params)

/-- An execute phase faults only for 00EE on an empty stack, 2NNN on a full one, DXYN beyond memory. If executing an
instruction from a state without fault answers a state with a record latched, then it is 00EE with an empty stack
and StackUnderflow, or 2NNN with STACK_DEPTH entries or more and StackOverflow, or DXYN whose sprite leaves memory
and SpriteReadOutOfRange. The overflow fault is the spec's decision D1 (a choice, log entry 4), what a record holds
D6 and D7 (log entry 11), the range check of DXYN D9 (log entry 12). (Derived: 60_exceptions.md section 1,
92_eei_decisions.md D1, D6, D7, D9.) -/
def Obligations.OnlyThreeInstructionsFault : Prop :=
  ∀ (i : Instr) (s t : State) (r : FaultRecord), s.fault = none → exec i s = .next t → t.fault = some r →
    (i = .ret ∧ s.stack = [] ∧ r = .stackUnderflow s.pc 0x00EE#16) ∨
    (∃ nnn depth, i = .call nnn ∧ s.params.stackDepth = some depth ∧ depth ≤ s.stack.length ∧
      r = .stackOverflow s.pc (encode i)) ∨
    (∃ x y n, i = .drw x y n ∧ 1 ≤ n.toNat ∧ 0xFFF < s.ri.toNat + n.toNat - 1 ∧
      r = .spriteReadOutOfRange s.pc (encode i) 0x1000#16)

/-- While a fault is latched, any sequence of ticks and loads changes nothing. From a state with a record latched,
delivering any list of events that holds no Reset, one step an event, ends in the same state with no event left.
That timers stop is the spec's decision D13 (a choice, log entry 15), that a load is refused its decision D14 (a
choice, log entry 16); the list of events is the model's own field (log entry 2). (Derived: 60_exceptions.md section
1, 92_eei_decisions.md D13, D14.) -/
def Obligations.HaltedMachineIgnoresEveryEventButReset : Prop :=
  ∀ (s : State) (events : List Event), s.fault ≠ none → Event.reset ∉ events →
    Host.Core.run Sys2Proof.core events.length { s with inputs := events } = .next { s with inputs := [] }

/-- An instruction that completes sets phase Running; one that faults leaves the phase. From a state without fault: if
an instruction completes the phase is Running after it, and if it faults the phase is as before. That a faulting
first step leaves the phase is the model's reading of the spec (log entry 6). (Derived: 10_state.md section 9,
40_fetch_decode_execute.md, 92_eei_decisions.md D14.) -/
def Obligations.CompletedStepSetsPhaseRunning : Prop :=
  ∀ (i : Instr) (s t : State), s.fault = none → exec i s = .next t →
    (t.fault = none → t.phase = .running) ∧ (t.fault ≠ none → t.phase = s.phase)

/-- 00EE pops the newest return address into pc, or latches StackUnderflow on an empty stack. On a non-empty stack 00EE
completes: pc is the newest entry, that entry is gone, and everything but pc, stack and phase is unchanged. On an
empty stack it answers the same state with StackUnderflow(pc, 0x00EE) latched. 0x00EE is its word. That the
underflow leaves everything but the latch, pc included, and that the record names pc and the word are the spec's
decisions D6 and D7 (choices, log entry 11). (Derived: 41_flow.md section 1, 60_exceptions.md section 1,
92_eei_decisions.md D6, D7.) -/
def Obligations.RetPopsOrUnderflows : Prop :=
  decodeWord 0x00EE#16 = .ok .ret ∧
  (∀ (s : State) (older : List Word) (v : Word), s.stack = older ++ [v] →
    ∃ t, exec .ret s = .next t ∧ t.pc = v ∧ t.stack = older ∧ KeepsAllBut [.pc, .stack, .phase] s t) ∧
  (∀ s : State, s.stack = [] →
    exec .ret s = .next { s with fault := some (.stackUnderflow s.pc 0x00EE#16) })

/-- 1NNN loads pc with NNN. 1NNN completes in every state: pc is NNN zero-extended and everything but pc and phase is
unchanged. The word is 1 followed by NNN. (Stated: R141.) -/
def Obligations.JpLoadsPc : Prop :=
  ∀ (nnn : Addr12) (s : State),
    decodeWord (0x1#4 ++ nnn) = .ok (.jp nnn) ∧
    ∃ t, exec (.jp nnn) s = .next t ∧ t.pc = nnn.setWidth 16 ∧ KeepsAllBut [.pc, .phase] s t

/-- 2NNN pushes the address after itself and jumps, or latches StackOverflow on a full stack. With fewer entries than
STACK_DEPTH, or with STACK_DEPTH unbounded, 2NNN completes: pc + 2 becomes the newest entry, pc is NNN, and
everything but pc, stack and phase is unchanged. With STACK_DEPTH entries or more it answers the same state with
StackOverflow(pc, word) latched. A finite depth and the overflow fault are the spec's decision D1 (a choice, log
entry 4), that a fault changes nothing but the latch its decision D6 (a choice, log entry 11); the statement holds
for every STACK_DEPTH. (Derived: 41_flow.md section 1, 92_eei_decisions.md D1, D6.) -/
def Obligations.CallPushesNextPcAndJumps : Prop :=
  ∀ (nnn : Addr12) (s : State),
    decodeWord (0x2#4 ++ nnn) = .ok (.call nnn) ∧
    (s.hasRoom → ∃ t, exec (.call nnn) s = .next t ∧ t.pc = nnn.setWidth 16 ∧
      t.stack = s.stack ++ [s.pc + 2] ∧ KeepsAllBut [.pc, .stack, .phase] s t) ∧
    (∀ depth, s.params.stackDepth = some depth → depth ≤ s.stack.length →
      exec (.call nnn) s = .next { s with fault := some (.stackOverflow s.pc (0x2#4 ++ nnn)) })

/-- BNNN loads pc with x[0] + NNN, not reduced to 12 bits. BNNN completes in every state: pc as a number is x[0] + NNN,
whatever X nibble the word has, and everything but pc and phase is unchanged. (Stated: R143.) -/
def Obligations.JpV0AddsRegisterZero : Prop :=
  ∀ (nnn : Addr12) (s : State),
    decodeWord (0xB#4 ++ nnn) = .ok (.jpV0 nnn) ∧
    ∃ t, exec (.jpV0 nnn) s = .next t ∧ t.pc.toNat = (s.reg 0).toNat + nnn.toNat ∧ KeepsAllBut [.pc, .phase] s t

/-- 3XNN and 4XNN skip two bytes on equality and on inequality with NN. 3XNN completes with pc + 4 if x[X] = NN and pc +
2 otherwise, 4XNN the other way round, whatever word is skipped; everything but pc and phase is unchanged. X = F is
no exception. (Stated: R144, R145.) -/
def Obligations.ImmediateSkipsCompareWithNN : Prop :=
  ∀ (x : Nibble) (nn : Byte) (s : State),
    decodeWord (0x3#4 ++ x ++ nn) = .ok (.seImm x nn) ∧
    decodeWord (0x4#4 ++ x ++ nn) = .ok (.sneImm x nn) ∧
    (∃ t, exec (.seImm x nn) s = .next t ∧ (t.pc = if s.reg x = nn then s.pc + 4 else s.pc + 2) ∧
      KeepsAllBut [.pc, .phase] s t) ∧
    (∃ t, exec (.sneImm x nn) s = .next t ∧ (t.pc = if s.reg x = nn then s.pc + 2 else s.pc + 4) ∧
      KeepsAllBut [.pc, .phase] s t)

/-- 5XY0 and 9XY0 skip two bytes on equality and on inequality of two registers. 5XY0 completes with pc + 4 if x[X] =
x[Y] and pc + 2 otherwise, 9XY0 the other way round; everything but pc and phase is unchanged. With X = Y 5XY0
always and 9XY0 never skips. (Stated: R146, R147.) -/
def Obligations.RegisterSkipsCompareRegisters : Prop :=
  ∀ (x y : Nibble) (s : State),
    decodeWord (0x5#4 ++ x ++ y ++ 0x0#4) = .ok (.seReg x y) ∧
    decodeWord (0x9#4 ++ x ++ y ++ 0x0#4) = .ok (.sneReg x y) ∧
    (∃ t, exec (.seReg x y) s = .next t ∧ (t.pc = if s.reg x = s.reg y then s.pc + 4 else s.pc + 2) ∧
      KeepsAllBut [.pc, .phase] s t) ∧
    (∃ t, exec (.sneReg x y) s = .next t ∧ (t.pc = if s.reg x = s.reg y then s.pc + 2 else s.pc + 4) ∧
      KeepsAllBut [.pc, .phase] s t)

/-- A return at the depth a call left resumes after the call and restores the stack. If s has room for a push, 2NNN
completes from s, giving t, and 00EE later completes from any state u whose stack is t's, then pc ends at s's pc + 2
and the stack is s's, so sp is too. For every STACK_DEPTH. (Derived: 41_flow.md section 3.) -/
def Obligations.CallThenReturnResumesAfterCall : Prop :=
  ∀ (nnn : Addr12) (s t u : State), s.hasRoom → exec (.call nnn) s = .next t → u.stack = t.stack →
    ∃ v, exec .ret u = .next v ∧ v.pc = s.pc + 2 ∧ v.stack = s.stack ∧ v.sp = s.sp

/-- 6XNN loads x[X] with NN. 6XNN completes in every state: x[X] = NN, every other register is unchanged, pc advances by
2, everything else but phase is unchanged. All registers and values, X = F included. (Stated: R160.) -/
def Obligations.LdImmLoadsRegister : Prop :=
  ∀ (x : Nibble) (nn : Byte) (s : State),
    decodeWord (0x6#4 ++ x ++ nn) = .ok (.ldImm x nn) ∧
    (∃ t, exec (.ldImm x nn) s = .next t ∧ t.reg x = nn ∧ KeepsRegsBut [x] s t ∧ t.pc = s.pc + 2 ∧
      KeepsAllBut [.regs, .pc, .phase] s t)

/-- 7XNN adds NN modulo 256 and writes no flag. 7XNN completes in every state: x[X] as a number is (x[X] + NN) mod 256,
every other register (x[F] too, unless X = F) is unchanged, pc advances by 2, everything else but phase is
unchanged. (Stated: R161.) -/
def Obligations.AddImmWrapsWithoutFlag : Prop :=
  ∀ (x : Nibble) (nn : Byte) (s : State),
    decodeWord (0x7#4 ++ x ++ nn) = .ok (.addImm x nn) ∧
    (∃ t, exec (.addImm x nn) s = .next t ∧ (t.reg x).toNat = ((s.reg x).toNat + nn.toNat) % 256 ∧
      KeepsRegsBut [x] s t ∧ t.pc = s.pc + 2 ∧ KeepsAllBut [.regs, .pc, .phase] s t)

/-- 8XY0 copies x[Y] to x[X]. 8XY0 completes in every state: x[X] is the old x[Y], every other register is unchanged, pc
advances by 2, everything else but phase is unchanged; X = Y changes no register. (Stated: R162.) -/
def Obligations.LdRegCopies : Prop :=
  ∀ (x y : Nibble) (s : State),
    decodeWord (0x8#4 ++ x ++ y ++ 0x0#4) = .ok (.ldReg x y) ∧
    (∃ t, exec (.ldReg x y) s = .next t ∧ t.reg x = s.reg y ∧ KeepsRegsBut [x] s t ∧ t.pc = s.pc + 2 ∧
      KeepsAllBut [.regs, .pc, .phase] s t)

/-- 8XY1, 8XY2 and 8XY3 are bitwise OR, AND, XOR and write no flag. Each completes in every state: bit k of x[X] is the
OR, AND or XOR of bits k of the old x[X] and x[Y], every other register (x[F] too, unless X = F) is unchanged, pc
advances by 2, everything else but phase is unchanged. (Stated: R163, R164, R165.) -/
def Obligations.LogicIsBitwiseWithoutFlag : Prop :=
  ∀ (x y : Nibble) (s : State),
    decodeWord (0x8#4 ++ x ++ y ++ 0x1#4) = .ok (.orReg x y) ∧
    decodeWord (0x8#4 ++ x ++ y ++ 0x2#4) = .ok (.andReg x y) ∧
    decodeWord (0x8#4 ++ x ++ y ++ 0x3#4) = .ok (.xorReg x y) ∧
    (∃ t, exec (.orReg x y) s = .next t ∧
      (∀ k, (t.reg x).getLsbD k = ((s.reg x).getLsbD k || (s.reg y).getLsbD k)) ∧
      KeepsRegsBut [x] s t ∧ t.pc = s.pc + 2 ∧ KeepsAllBut [.regs, .pc, .phase] s t) ∧
    (∃ t, exec (.andReg x y) s = .next t ∧
      (∀ k, (t.reg x).getLsbD k = ((s.reg x).getLsbD k && (s.reg y).getLsbD k)) ∧
      KeepsRegsBut [x] s t ∧ t.pc = s.pc + 2 ∧ KeepsAllBut [.regs, .pc, .phase] s t) ∧
    (∃ t, exec (.xorReg x y) s = .next t ∧
      (∀ k, (t.reg x).getLsbD k = ((s.reg x).getLsbD k ^^ (s.reg y).getLsbD k)) ∧
      KeepsRegsBut [x] s t ∧ t.pc = s.pc + 2 ∧ KeepsAllBut [.regs, .pc, .phase] s t)

/-- 8XY4 adds modulo 256 and leaves the carry in x[F], also when X = F or Y = F. 8XY4 completes in every state: x[F]
ends as 1 if the sum of the old x[X] and x[Y] exceeds 255 and 0 otherwise (also when X = F, where the sum is lost),
x[X] ends as the sum mod 256 when X is not F, every other register is unchanged, pc advances by 2, everything else
but phase is unchanged. The outcome for X = F and Y = F is the spec's decision D2 (log entry 7). (Derived: 42_alu.md
sections 3 and 4, 92_eei_decisions.md D2.) -/
def Obligations.AddRegSetsCarry : Prop :=
  ∀ (x y : Nibble) (s : State),
    decodeWord (0x8#4 ++ x ++ y ++ 0x4#4) = .ok (.addReg x y) ∧
    (∃ t, exec (.addReg x y) s = .next t ∧
      (x ≠ 0xF#4 → (t.reg x).toNat = ((s.reg x).toNat + (s.reg y).toNat) % 256) ∧
      (t.reg 0xF#4).toNat = (if 255 < (s.reg x).toNat + (s.reg y).toNat then 1 else 0) ∧
      KeepsRegsBut [x, 0xF#4] s t ∧ t.pc = s.pc + 2 ∧ KeepsAllBut [.regs, .pc, .phase] s t)

/-- 8XY5 and 8XY7 subtract modulo 256 and leave the borrow in x[F]; with X = F the difference stays. 8XY5 completes with
x[X] = (x[X] - x[Y]) mod 256 and, when X is not F, x[F] = 1 if x[Y] > x[X] else 0; 8XY7 with x[X] = (x[Y] - x[X])
mod 256 and x[F] = 1 if x[X] > x[Y] else 0; all operands are old values; every other register is unchanged, pc
advances by 2, everything else but phase is unchanged. The outcome for X = F and Y = F is the spec's decision D2
(log entry 7). (Derived: 42_alu.md sections 3 and 4, 92_eei_decisions.md D2.) -/
def Obligations.SubtractionsSetBorrow : Prop :=
  ∀ (x y : Nibble) (s : State),
    decodeWord (0x8#4 ++ x ++ y ++ 0x5#4) = .ok (.subReg x y) ∧
    decodeWord (0x8#4 ++ x ++ y ++ 0x7#4) = .ok (.subnReg x y) ∧
    (∃ t, exec (.subReg x y) s = .next t ∧
      (t.reg x).toNat = ((s.reg x).toNat + 256 - (s.reg y).toNat) % 256 ∧
      (x ≠ 0xF#4 → (t.reg 0xF#4).toNat = (if (s.reg x).toNat < (s.reg y).toNat then 1 else 0)) ∧
      KeepsRegsBut [x, 0xF#4] s t ∧ t.pc = s.pc + 2 ∧ KeepsAllBut [.regs, .pc, .phase] s t) ∧
    (∃ t, exec (.subnReg x y) s = .next t ∧
      (t.reg x).toNat = ((s.reg y).toNat + 256 - (s.reg x).toNat) % 256 ∧
      (x ≠ 0xF#4 → (t.reg 0xF#4).toNat = (if (s.reg y).toNat < (s.reg x).toNat then 1 else 0)) ∧
      KeepsRegsBut [x, 0xF#4] s t ∧ t.pc = s.pc + 2 ∧ KeepsAllBut [.regs, .pc, .phase] s t)

/-- 8XY6 and 8XYE shift x[X] by one and leave the lost bit in x[F]; Y is ignored. 8XY6 completes with x[X] = x[X] / 2
and, when X is not F, x[F] = the old bit 0; 8XYE with x[X] = 2 x[X] mod 256 and x[F] = the old bit 7; every other
register is unchanged, pc advances by 2, everything else but phase is unchanged; the result is the same for every Y.
The outcome for X = F is the spec's decision D2 (log entry 7). (Derived: 42_alu.md sections 3 and 4, 30_encoding.md
section 2, 92_eei_decisions.md D2.) -/
def Obligations.ShiftsSetLostBitAndIgnoreY : Prop :=
  ∀ (x y : Nibble) (s : State),
    decodeWord (0x8#4 ++ x ++ y ++ 0x6#4) = .ok (.shr x y) ∧
    decodeWord (0x8#4 ++ x ++ y ++ 0xE#4) = .ok (.shl x y) ∧
    (∃ t, exec (.shr x y) s = .next t ∧
      (t.reg x).toNat = (s.reg x).toNat / 2 ∧
      (x ≠ 0xF#4 → (t.reg 0xF#4).toNat = (s.reg x).toNat % 2) ∧
      KeepsRegsBut [x, 0xF#4] s t ∧ t.pc = s.pc + 2 ∧ KeepsAllBut [.regs, .pc, .phase] s t) ∧
    (∃ t, exec (.shl x y) s = .next t ∧
      (t.reg x).toNat = (2 * (s.reg x).toNat) % 256 ∧
      (x ≠ 0xF#4 → (t.reg 0xF#4).toNat = (s.reg x).toNat / 128) ∧
      KeepsRegsBut [x, 0xF#4] s t ∧ t.pc = s.pc + 2 ∧ KeepsAllBut [.regs, .pc, .phase] s t) ∧
    (∀ z : Nibble, exec (.shr x y) s = exec (.shr x z) s ∧ exec (.shl x y) s = exec (.shl x z) s)

/-- The results of the five flag-writing instructions when X, Y or both are F. With f the old x[F]: 8FY4 leaves the
carry of f + x[Y]; 8FY5 leaves f - x[Y], 8FY7 leaves x[Y] - f, 8FY6 leaves f / 2, 8FYE leaves 2 f mod 256, all in
x[F]; with X not F, 8XF4, 8XF5 and 8XF7 compute and flag with the old f, 8XF6 leaves x[X] / 2 and flags the old bit
0 of x[X], 8XFE leaves 2 x[X] mod 256 and flags its old bit 7; 8FF4 leaves 1 iff f is at least 128; 8FF5 and 8FF7
leave 0; 8FF6 and 8FFE are the forms 8FY6 and 8FYE with Y = F. These forms rest on the spec's decision D2 (a choice,
log entry 7). (Derived: 42_alu.md section 4, 92_eei_decisions.md D2.) -/
def Obligations.FlagRegisterAsOperand : Prop :=
  ∀ (x y : Nibble) (s : State),
    (∃ t, exec (.addReg 0xF#4 y) s = .next t ∧
      t.reg 0xF#4 = if 255 < (s.reg 0xF#4).toNat + (s.reg y).toNat then 1#8 else 0#8) ∧
    (∃ t, exec (.subReg 0xF#4 y) s = .next t ∧ t.reg 0xF#4 = s.reg 0xF#4 - s.reg y) ∧
    (∃ t, exec (.subnReg 0xF#4 y) s = .next t ∧ t.reg 0xF#4 = s.reg y - s.reg 0xF#4) ∧
    (∃ t, exec (.shr 0xF#4 y) s = .next t ∧ (t.reg 0xF#4).toNat = (s.reg 0xF#4).toNat / 2) ∧
    (∃ t, exec (.shl 0xF#4 y) s = .next t ∧ (t.reg 0xF#4).toNat = (2 * (s.reg 0xF#4).toNat) % 256) ∧
    (x ≠ 0xF#4 →
      (∃ t, exec (.addReg x 0xF#4) s = .next t ∧ t.reg x = s.reg x + s.reg 0xF#4 ∧
        t.reg 0xF#4 = if 255 < (s.reg x).toNat + (s.reg 0xF#4).toNat then 1#8 else 0#8) ∧
      (∃ t, exec (.shr x 0xF#4) s = .next t ∧ (t.reg x).toNat = (s.reg x).toNat / 2 ∧
        (t.reg 0xF#4).toNat = (s.reg x).toNat % 2) ∧
      (∃ t, exec (.shl x 0xF#4) s = .next t ∧ (t.reg x).toNat = (2 * (s.reg x).toNat) % 256 ∧
        (t.reg 0xF#4).toNat = (s.reg x).toNat / 128) ∧
      (∃ t, exec (.subReg x 0xF#4) s = .next t ∧ t.reg x = s.reg x - s.reg 0xF#4 ∧
        t.reg 0xF#4 = if (s.reg x).toNat < (s.reg 0xF#4).toNat then 1#8 else 0#8) ∧
      (∃ t, exec (.subnReg x 0xF#4) s = .next t ∧ t.reg x = s.reg 0xF#4 - s.reg x ∧
        t.reg 0xF#4 = if (s.reg 0xF#4).toNat < (s.reg x).toNat then 1#8 else 0#8)) ∧
    (∃ t, exec (.addReg 0xF#4 0xF#4) s = .next t ∧
      t.reg 0xF#4 = if 128 ≤ (s.reg 0xF#4).toNat then 1#8 else 0#8) ∧
    (∃ t, exec (.subReg 0xF#4 0xF#4) s = .next t ∧ t.reg 0xF#4 = 0#8) ∧
    (∃ t, exec (.subnReg 0xF#4 0xF#4) s = .next t ∧ t.reg 0xF#4 = 0#8)

/-- A register changes only as the X destination, or as x[F] by one of the five flag writers with 0 or 1. Over all
instructions: a register that is not the instruction's X destination and not x[F] never changes; x[F], when it is
not the destination, changes only under 8XY4, 8XY5, 8XY6, 8XY7 or 8XYE, and then holds 0 or 1. That DXYN leaves x[F]
alone is the spec's decision D3 (a choice, log entry 8). (Derived: 10_state.md section 2, 42_alu.md sections 1 to 3,
92_eei_decisions.md D3.) -/
def Obligations.RegistersChangeOnlyByDestinationOrFlag : Prop :=
  ∀ (i : Instr) (s t : State), exec i s = .next t →
    (∀ r, i.destination ≠ some r → r ≠ 0xF#4 → t.reg r = s.reg r) ∧
    (i.destination ≠ some 0xF#4 →
      (i.writesFlag = false → t.reg 0xF#4 = s.reg 0xF#4) ∧
      (i.writesFlag = true → t.reg 0xF#4 = 0#8 ∨ t.reg 0xF#4 = 1#8))

/-- ANNN loads ri with NNN, unchecked. ANNN completes in every state: ri is NNN zero-extended, pc advances by 2,
everything else but phase is unchanged; every NNN is accepted. No other instruction changes ri. (Stated: R190.) -/
def Obligations.LdILoadsIndex : Prop :=
  (∀ (nnn : Addr12) (s : State),
    decodeWord (0xA#4 ++ nnn) = .ok (.ldI nnn) ∧
    ∃ t, exec (.ldI nnn) s = .next t ∧ t.ri = nnn.setWidth 16 ∧ t.pc = s.pc + 2 ∧
      KeepsAllBut [.ri, .pc, .phase] s t) ∧
  (∀ (i : Instr) (s t : State), exec i s = .next t → t.ri ≠ s.ri → ∃ nnn, i = .ldI nnn)

/-- CXNN advances the LFSR one step and loads x[X] with the new state AND NN. CXNN completes in every state: lfsr is one
lfsr_step on, x[X] is that new state AND NN, every other register is unchanged, pc advances by 2, everything else
but phase is unchanged. That the byte is the state after the step is the spec's decision D10 (log entry 13).
(Derived: 43_index_random.md, 92_eei_decisions.md D10.) -/
def Obligations.RndStepsLfsrAndMasks : Prop :=
  ∀ (x : Nibble) (nn : Byte) (s : State),
    decodeWord (0xC#4 ++ x ++ nn) = .ok (.rnd x nn) ∧
    ∃ t, exec (.rnd x nn) s = .next t ∧ t.lfsr = lfsrStep s.lfsr ∧ t.reg x = lfsrStep s.lfsr &&& nn ∧
      KeepsRegsBut [x] s t ∧ t.pc = s.pc + 2 ∧ KeepsAllBut [.regs, .lfsr, .pc, .phase] s t

/-- lfsr_step puts the parity of bits 7, 5, 4, 2 into bit 7 and shifts the rest right. Bit 7 of the new state is the XOR
of bits 7, 5, 4 and 2 of the old one, and bit k is the old bit k + 1 for k below 7; so 0xAC goes to 0xD6, 0xFF to
0x7F, 0x80 to 0xC0, 0x04 to 0x82, 0x01 and 0x00 to 0x00. (Stated: R247.) -/
def Obligations.LfsrStepShiftsInTheTapParity : Prop :=
  (∀ s : Byte, (lfsrStep s).getLsbD 7 = (s.getLsbD 7 ^^ s.getLsbD 5 ^^ s.getLsbD 4 ^^ s.getLsbD 2) ∧
    ∀ k, k < 7 → (lfsrStep s).getLsbD k = s.getLsbD (k + 1)) ∧
  lfsrStep 0xAC#8 = 0xD6#8 ∧ lfsrStep 0xFF#8 = 0x7F#8 ∧ lfsrStep 0x80#8 = 0xC0#8 ∧
  lfsrStep 0x04#8 = 0x82#8 ∧ lfsrStep 0x01#8 = 0x00#8 ∧ lfsrStep 0x00#8 = 0x00#8

/-- From a seed in 0x04 to 0xFF the LFSR is never 0 and repeats with period 63 after two steps. States that differ only
in bit 0 have the same successor; 0 is a fixed point; a nonzero state reaches 0 exactly if it is 1, 2 or 3; from
every state of at least 4, after any two or more steps, 63 further steps give the same state again. (Derived:
60_exceptions.md section 4, 90_conflicts.md C1.) -/
def Obligations.LfsrNeverReachesZeroFromLegalSeed : Prop :=
  (∀ s : Byte, lfsrStep (s ^^^ 1#8) = lfsrStep s) ∧ lfsrStep 0#8 = 0#8 ∧
  (∀ s : Byte, s ≠ 0#8 → ((∃ k, lfsrIterate k s = 0#8) ↔ s = 1#8 ∨ s = 2#8 ∨ s = 3#8)) ∧
  (∀ (s : Byte) (k : Nat), 4 ≤ s.toNat → 2 ≤ k → lfsrIterate (k + 63) s = lfsrIterate k s)

/-- A step changes the LFSR only by a Reset event or by running CXNN. If a step answers a state whose lfsr differs, then
either the event delivered is a Reset, or the machine is not halted, the instruction at pc is a CXNN, and the new
lfsr is one step on: neither timer ticks nor loads nor any other instruction move it. A Reset event at any time is
the spec's decision D19 (a choice, log entry 18); the list of events is the model's own field (log entry 2).
(Derived: 60_exceptions.md section 4, 43_index_random.md.) -/
def Obligations.LfsrMovesOnlyByRnd : Prop :=
  ∀ s t : State, step s = .next t → t.lfsr ≠ s.lfsr →
    (∃ rest, s.inputs = .reset :: rest) ∨
    (s.fault = none ∧ (s.inputs = [] ∨ ∃ rest, s.inputs = .cpuTick :: rest) ∧
      ∃ x nn, decodeWord s.wordAtPc = .ok (.rnd x nn) ∧ t.lfsr = lfsrStep s.lfsr)

/-- 00E0 turns every pixel off and publishes one all-off frame. 00E0 completes in every state: every pixel is off, one
snapshot equal to the cleared framebuffer is appended to frames (also when it was clear before), pc advances by 2,
everything else but phase is unchanged. That a clear of a clear framebuffer publishes too is the spec's decision D12
(a choice, log entry 14). (Derived: 44_display.md section 1, 92_eei_decisions.md D12.) -/
def Obligations.ClsClearsAndPublishes : Prop :=
  decodeWord 0x00E0#16 = .ok .cls ∧
  ∀ s : State, ∃ t, exec .cls s = .next t ∧ (∀ k, k < 2048 → t.fb.bit k = false) ∧
    t.frames = s.frames ++ [t.fb] ∧ t.pc = s.pc + 2 ∧ KeepsAllBut [.fb, .frames, .pc, .phase] s t

/-- DXYN XORs the sprite into the grid, clipped, publishes once, and writes no register. When its sprite lies in memory
(or N = 0) DXYN completes: every pixel (px, py) of the 64 by 32 grid is XORed with the sprite bit at column px -
(x[X] mod 64) and row py - (x[Y] mod 32), where there is one, so that pixels past the right and bottom edges are
dropped; one snapshot of the result is appended to frames; pc advances by 2; every register, x[F] too, and
everything else but phase is unchanged. Clip, no collision flag, publish always and N = 0 are the spec's decisions
D4, D3, D12, D21 (log entries 9, 8, 14, 22). (Derived: 44_display.md, 92_eei_decisions.md D3, D4, D9, D12, D21.) -/
def Obligations.DrwXorsClippedSprite : Prop :=
  ∀ (x y n : Nibble) (s : State),
    decodeWord (0xD#4 ++ x ++ y ++ n) = .ok (.drw x y n) ∧
    (s.spriteInMemory n →
      ∃ t, exec (.drw x y n) s = .next t ∧
        (∀ px py, px < 64 → py < 32 → t.fb.pixel px py =
          (s.fb.pixel px py ^^
            spriteBit s.mem s.ri.toNat ((s.reg x).toNat % 64) ((s.reg y).toNat % 32) n.toNat px py)) ∧
        t.frames = s.frames ++ [t.fb] ∧ t.pc = s.pc + 2 ∧ KeepsAllBut [.fb, .frames, .pc, .phase] s t)

/-- DXYN whose last row lies beyond 0xFFF latches SpriteReadOutOfRange and draws nothing. If N is at least 1 and ri + N
- 1 exceeds 0xFFF, DXYN answers the same state with SpriteReadOutOfRange(pc, word, 0x1000) latched: no pixel, no
frame, no pc change, also when the rows beyond memory would be clipped. The moment of the check is the spec's
decision D9 (log entry 12). That nothing else changes is its decision D6 (a choice, log entry 11). (Derived:
44_display.md, 60_exceptions.md section 1, 92_eei_decisions.md D6, D9.) -/
def Obligations.DrwBeyondMemoryFaultsUntouched : Prop :=
  ∀ (x y n : Nibble) (s : State), 1 ≤ n.toNat → 0xFFF < s.ri.toNat + n.toNat - 1 →
    exec (.drw x y n) s =
      .next { s with fault := some (.spriteReadOutOfRange s.pc (0xD#4 ++ x ++ y ++ n) 0x1000#16) }

/-- Drawing the same sprite twice restores the whole framebuffer and publishes it. If DXYN completes from s giving t and
the same DXYN runs again from t, it completes, the framebuffer is s's again, and two frames were published, the
second equal to the framebuffer before the first draw; for every position, clipped or not. That each draw publishes
one frame whatever changed is the spec's decision D12 (a choice, log entry 14), that a sprite past an edge is
clipped its decision D4 (a choice, log entry 9). (Derived: 44_display.md, 92_eei_decisions.md D4, D12.) -/
def Obligations.DrawingTwiceRestoresFramebuffer : Prop :=
  ∀ (x y n : Nibble) (s t : State), s.spriteInMemory n → exec (.drw x y n) s = .next t →
    ∃ u, exec (.drw x y n) t = .next u ∧ u.fb = s.fb ∧ u.frames = s.frames ++ [t.fb, s.fb]

/-- FX07 loads x[X] with the delay timer. FX07 completes in every state: x[X] = dt, every other register and dt itself
are unchanged, pc advances by 2, everything else but phase is unchanged. (Stated: R220.) -/
def Obligations.ReadDelayTimer : Prop :=
  ∀ (x : Nibble) (s : State),
    decodeWord (0xF#4 ++ x ++ 0x07#8) = .ok (.ldFromDt x) ∧
    (∃ t, exec (.ldFromDt x) s = .next t ∧ t.reg x = s.dt ∧ KeepsRegsBut [x] s t ∧ t.pc = s.pc + 2 ∧
      KeepsAllBut [.regs, .pc, .phase] s t)

/-- FX15 loads the delay timer with x[X]. FX15 completes in every state: dt = x[X], whatever count was in progress; pc
advances by 2; every register, st, and everything else but phase is unchanged. (Stated: R221.) -/
def Obligations.WriteDelayTimer : Prop :=
  ∀ (x : Nibble) (s : State),
    decodeWord (0xF#4 ++ x ++ 0x15#8) = .ok (.ldDt x) ∧
    ∃ t, exec (.ldDt x) s = .next t ∧ t.dt = s.reg x ∧ t.pc = s.pc + 2 ∧ KeepsAllBut [.dt, .pc, .phase] s t

/-- FX18 loads the sound timer with x[X]. FX18 completes in every state: st = x[X]; pc advances by 2; every register,
dt, and everything else but phase is unchanged. (Stated: R222.) -/
def Obligations.WriteSoundTimer : Prop :=
  ∀ (x : Nibble) (s : State),
    decodeWord (0xF#4 ++ x ++ 0x18#8) = .ok (.ldSt x) ∧
    ∃ t, exec (.ldSt x) s = .next t ∧ t.st = s.reg x ∧ t.pc = s.pc + 2 ∧ KeepsAllBut [.st, .pc, .phase] s t

/-- A TimerTick lowers each timer that is not 0 by one and changes nothing else. A step that delivers a TimerTick to a
machine with no fault answers a state in which dt and st are each one lower if they were above 0 and 0 otherwise,
the tick is off the list, and everything else is unchanged, pc, phase, lfsr and frames included; with a fault
latched only the tick is off the list. From dt = 3 one tick gives 2. That a halted machine's timers stand is the
spec's decision D13 (a choice, log entry 15); the list the tick is taken off is the model's own field (log entry 2).
(Derived: 60_exceptions.md section 3, 92_eei_decisions.md D13.) -/
def Obligations.TimerTickDecrementsEachTimer : Prop :=
  ∀ (s : State) (rest : List Event), s.inputs = .timerTick :: rest →
    (s.fault = none → ∃ t, step s = .next t ∧
      t.dt.toNat = s.dt.toNat - 1 ∧ t.st.toNat = s.st.toNat - 1 ∧ t.inputs = rest ∧
      KeepsAllBut [.dt, .st, .inputs] s t) ∧
    (s.fault ≠ none → step s = .next { s with inputs := rest })

/-- After n TimerTicks each timer is lower by n, floored at 0. Delivering n TimerTicks to a machine with no fault, one
step a tick, ends with dt and st each lower by n and floored at 0, and everything else unchanged: a timer loaded
with v is 0 after exactly v ticks. The list of events is the model's own field (log entry 2). (Derived:
70_reset_and_hazards.md section 4, 60_exceptions.md section 3.) -/
def Obligations.TimersReachZeroAfterTheirValue : Prop :=
  ∀ (n : Nat) (s : State), s.fault = none →
    ∃ t, Host.Core.run Sys2Proof.core n { s with inputs := List.replicate n .timerTick } = .next t ∧
      t.dt.toNat = s.dt.toNat - n ∧ t.st.toNat = s.st.toNat - n ∧ t.inputs = [] ∧
      KeepsAllBut [.dt, .st, .inputs] s t

/-- A TimerTick and an instruction that reaches no timer may be applied in either order. For every instruction but FX07,
FX15, FX18 that completes without fault, ticking the timers and then running it gives the same state as running it
and then ticking the timers. (Derived: 60_exceptions.md sections 3 and 6.) -/
def Obligations.TimerTickCommutesWithOtherInstructions : Prop :=
  ∀ (i : Instr) (s t : State), s.fault = none → i.reachesTimer = false → exec i s = .next t → t.fault = none →
    exec i s.timerTick = .next t.timerTick

/-- No instruction and no timer tick writes memory. No instruction changes the memory of the state it runs from, and a
step whose event is neither a Reset nor a Load leaves memory as it was: memory is constant from the load to the next
reset. (Stated: R66.) -/
def Obligations.OnlyLoadAndResetWriteMemory : Prop :=
  (∀ (i : Instr) (s t : State), exec i s = .next t → t.mem = s.mem) ∧
  (∀ s t : State, (∀ rest, s.inputs ≠ .reset :: rest) → (∀ bytes rest, s.inputs ≠ .load bytes :: rest) →
    step s = .next t → t.mem = s.mem)

/-- Two memories in canonical form that read alike at every address are equal. If two memories in canonical form give
the same byte at every address from 0x000 to 0xFFF, they are the same list: equal memories are equal data (a
property of the model's representation). (Derived: 20_memory.md section 1, 10_state.md section 7.) -/
def Obligations.CanonicalMemoriesAreDetermined : Prop :=
  ∀ m m' : Memory, m.wf → m'.wf → (∀ a, a ≤ 0xFFF → m.read a = m'.read a) → m = m'

/-- A Load in phase Empty with at most 3584 bytes copies them to 0x200 upwards; any other Load changes nothing. A step
that delivers Load(bytes): in phase Empty with no fault and at most 3584 bytes, byte k stands at 0x200 + k, every
other address reads as before, phase is Loaded, and everything else is unchanged; otherwise only the event is taken
off the list. One load per reset and the refusals are the spec's decision D14 (log entry 16). Premise: memory in
canonical form, which every step keeps. (Derived: 70_reset_and_hazards.md section 2, 92_eei_decisions.md D14.) -/
def Obligations.LoadCopiesProgramOrIsRefused : Prop :=
  ∀ (s : State) (bytes : List Byte) (rest : List Event), s.inputs = .load bytes :: rest → s.mem.wf →
    (s.phase = .empty ∧ s.fault = none ∧ bytes.length ≤ 3584 →
      ∃ t, step s = .next t ∧
        (∀ (k : Nat) (h : k < bytes.length), t.mem.read (0x200 + k) = bytes[k]) ∧
        (∀ a, a < 0x200 ∨ 0x200 + bytes.length ≤ a → t.mem.read a = s.mem.read a) ∧
        t.phase = .loaded ∧ t.inputs = rest ∧ KeepsAllBut [.mem, .phase, .inputs] s t) ∧
    (¬ (s.phase = .empty ∧ s.fault = none ∧ bytes.length ≤ 3584) → step s = .next { s with inputs := rest })

/-- The launch state of a program is reset plus its bytes from 0x200 and phase Loaded. For all legal parameters and
every byte sequence of at most 3584 bytes: after reset and its load, byte k stands at 0x200 + k, every other address
holds its reset content (FONT_TABLE at 0x050 to 0x09F, zero elsewhere), phase is Loaded, everything else is as after
reset, and the invariant holds. (Derived: 70_reset_and_hazards.md section 2.) -/
def Obligations.LaunchStateMeetsPremises : Prop :=
  ∀ (p : Params) (program : List Byte), p.legal = true → program.length ≤ 3584 →
    (∀ (k : Nat) (h : k < program.length), (State.launched p program).mem.read (0x200 + k) = program[k]) ∧
    (∀ a, a < 0x200 ∨ 0x200 + program.length ≤ a →
      (State.launched p program).mem.read a = initialByte p.fontTable a) ∧
    (State.launched p program).phase = .loaded ∧
    KeepsAllBut [.mem, .phase] (State.resetTo p) (State.launched p program) ∧ (State.launched p program).Inv

/-- A step from withFetchWord runs exactly the instruction of the given word. From every state with memory in canonical
form, if the word w decodes to i, the step after withFetchWord 16 w is exec of i at that state, with the pending
events s already had still pending (how the host places a word: log entry 19). (Derived: 70_reset_and_hazards.md
section 2, 40_fetch_decode_execute.md.) -/
def Obligations.WithFetchWordRunsThatInstruction : Prop :=
  ∀ (s : State) (w : Word) (i : Instr), s.mem.wf → decodeWord w = .ok i →
    step (s.withFetchWord 16 w.toNat) = exec i { s.withFetchWord 16 w.toNat with inputs := s.inputs }

/-- ri, dt, st, the stack, lfsr and the framebuffer change only by their dedicated instructions. Over all instructions:
ri changes only by ANNN, dt only by FX15, st only by FX18, the stack only by 2NNN and 00EE, lfsr only by CXNN, the
framebuffer and frames only by 00E0 and DXYN; memory, the parameters and the pending events by none. (Derived:
10_state.md sections 1 and 12.) -/
def Obligations.SpecialRegistersMoveOnlyByTheirInstructions : Prop :=
  ∀ (i : Instr) (s t : State), exec i s = .next t →
    (t.ri ≠ s.ri → ∃ nnn, i = .ldI nnn) ∧ (t.dt ≠ s.dt → ∃ x, i = .ldDt x) ∧ (t.st ≠ s.st → ∃ x, i = .ldSt x) ∧
    (t.stack ≠ s.stack → i = .ret ∨ ∃ nnn, i = .call nnn) ∧ (t.lfsr ≠ s.lfsr → ∃ x nn, i = .rnd x nn) ∧
    (t.fb ≠ s.fb → i.publishes = true) ∧ (t.frames ≠ s.frames → i.publishes = true) ∧
    (∀ a, t.mem.read a = s.mem.read a) ∧ t.params = s.params ∧ t.inputs = s.inputs

/-- The reset state meets the invariant, whatever events are pending. The invariant of the reachable states (legal
parameters, bounds of ri, pc, sp and return addresses, canonical memory with font and reserved ranges intact, lfsr
in its legal range, frame latch equal to the framebuffer, a latched record naming pc, memory as after reset before
the load) holds at reset, for State.reset and for the reset state of every machine with legal parameters, with any
list of events pending. It takes in choices of the spec: the finite stack D1 (log entry 4), precise faults D6 (log
entry 11), the fetch bound D8 (log entry 12), a publication at every draw and clear D12 (log entry 14), one load in
phase Empty D14 (log entry 16). (Derived: 10_state.md section 12, 92_eei_decisions.md D1, D6, D8, D12, D14.) -/
def Obligations.ResetMeetsInvariant : Prop :=
  (∀ events : List Event, State.Inv { State.reset with inputs := events }) ∧
  (∀ (p : Params) (events : List Event), p.legal = true → State.Inv { State.resetTo p with inputs := events })

/-- Every step keeps the invariant: bounds, intact font, live LFSR, latch equal to the framebuffer. For every state that
meets the invariant, whatever event is next, if a step answers a next state, that state meets the invariant. It
takes in choices of the spec: the finite stack D1 (log entry 4), precise faults D6 (log entry 11), the fetch bound
D8 (log entry 12), a publication at every draw and clear D12 (log entry 14), one load in phase Empty D14 (log entry
16). (Derived: 10_state.md section 12, 60_exceptions.md section 1, 92_eei_decisions.md D1, D6, D8, D12, D14.) -/
def Obligations.EveryStepKeepsInvariant : Prop :=
  ∀ s t : State, s.Inv → step s = .next t → t.Inv

/-- Every state of every run from reset, for every schedule of events, meets the invariant. For all legal parameters,
every list of events (resets, loads of any bytes, CPU and timer ticks in any order) and every number of steps, the
run from reset with those events pending answers a next state, and that state meets the invariant. It takes in
choices of the spec: the finite stack D1 (log entry 4), precise faults D6 (log entry 11), the fetch bound D8 (log
entry 12), a publication at every draw and clear D12 (log entry 14), one load in phase Empty D14 (log entry 16).
(Derived: 10_state.md section 12, 60_exceptions.md section 6, 92_eei_decisions.md D1, D6, D8, D12, D14.) -/
def Obligations.EveryRunFromResetIsSound : Prop :=
  ∀ (p : Params) (events : List Event) (k : Nat), p.legal = true →
    ∃ t, Host.Core.run Sys2Proof.core k { State.resetTo p with inputs := events } = .next t ∧ t.Inv

/-- The sound timer and CPU_HZ influence nothing: runs that differ only in them differ in nothing else. For every number
of steps, from states that differ only in st and in the parameter CPU_HZ, with the same pending events, both runs
answer next states that differ only in those two: no instruction, fault or frame depends on them. (Derived:
10_state.md sections 5 and 12, 70_reset_and_hazards.md section 4.) -/
def Obligations.SoundTimerAndRateInfluenceNothing : Prop :=
  ∀ (k : Nat) (s : State) (v : Byte) (hz : Rat), ∃ t w,
    Host.Core.run Sys2Proof.core k s = .next t ∧
    Host.Core.run Sys2Proof.core k { s with st := v, params := { s.params with cpuHz := hz } } =
      .next { t with st := w, params := { t.params with cpuHz := hz } }

/-- Two runs that differ only in the published frames never differ in anything else. For every number of steps, from
states that differ only in frames, both runs answer next states that differ only in frames: the frame sequence is an
output that no rule reads. (Derived: 10_state.md section 9.) -/
def Obligations.PublishedFramesInfluenceNothing : Prop :=
  ∀ (k : Nat) (s : State) (published : List Frame), ∃ t published',
    Host.Core.run Sys2Proof.core k s = .next t ∧
    Host.Core.run Sys2Proof.core k { s with frames := published } = .next { t with frames := published' }

/-- At an idle point a CpuTick changes nothing and a TimerTick only the timers. At an idle point (no fault, pc addresses
a 1NNN with NNN = pc) of a machine in phase Running: a step whose next event is a CpuTick, listed or implied by an
empty list, answers the same state with a listed tick taken off the list (the model's own field, log entry 2); a
step that delivers a TimerTick answers a state that is again an idle point and differs in dt, st and the pending
events only. (Derived: 60_exceptions.md section 6.) -/
def Obligations.IdlePointStaysIdle : Prop :=
  ∀ s : State, s.idlePoint → s.phase = .running →
    (s.inputs = [] → step s = .next s) ∧
    (∀ rest, s.inputs = .cpuTick :: rest → step s = .next { s with inputs := rest }) ∧
    (∀ rest, s.inputs = .timerTick :: rest →
      ∃ t, step s = .next t ∧ t.idlePoint ∧ KeepsAllBut [.dt, .st, .inputs] s t)
end

