-- ==== Sys2Proof/Laws/Decode.lean ====
section
/-! SUPPORT. The fields of a word written in each format (30_encoding.md R91), and a word put together from its fields:
what decoding and encoding proofs rest on. -/

namespace Sys2Proof

/-- Format NNN: the family. -/
@[simp] theorem opField_nnn (op : Nibble) (a : Addr12) : opField (op ++ a) = op := by
  apply BitVec.eq_of_getLsbD_eq
  intro i hi
  have h0 : ¬ 12 + i < 12 := by omega
  simp only [opField, BitVec.getLsbD_extractLsb', BitVec.getLsbD_append, hi, h0]
  simp

/-- Format NNN: the address. -/
@[simp] theorem nnnField_nnn (op : Nibble) (a : Addr12) : nnnField (op ++ a) = a := by
  apply BitVec.eq_of_getLsbD_eq
  intro i hi
  have h0 : 0 + i < 12 := by omega
  simp only [nnnField, BitVec.getLsbD_extractLsb', BitVec.getLsbD_append, hi, h0]
  simp

/-- Formats XNN and XSUB: the family. -/
@[simp] theorem opField_xnn (op x : Nibble) (nn : Byte) : opField (op ++ x ++ nn) = op := by
  apply BitVec.eq_of_getLsbD_eq
  intro i hi
  have h0 : ¬ 12 + i < 8 := by omega
  have h1 : ¬ 12 + i - 8 < 4 := by omega
  have h2 : 12 + i - 8 - 4 = i := by omega
  simp only [opField, BitVec.getLsbD_extractLsb', BitVec.getLsbD_append, hi, h0, h1, h2]
  simp

/-- Formats XNN and XSUB: X. -/
@[simp] theorem xField_xnn (op x : Nibble) (nn : Byte) : xField (op ++ x ++ nn) = x := by
  apply BitVec.eq_of_getLsbD_eq
  intro i hi
  have h0 : ¬ 8 + i < 8 := by omega
  have h1 : 8 + i - 8 = i := by omega
  simp only [xField, BitVec.getLsbD_extractLsb', BitVec.getLsbD_append, hi, h0, h1]
  simp

/-- Formats XNN and XSUB: NN. -/
@[simp] theorem nnField_xnn (op x : Nibble) (nn : Byte) : nnField (op ++ x ++ nn) = nn := by
  apply BitVec.eq_of_getLsbD_eq
  intro i hi
  have h0 : 0 + i < 8 := by omega
  simp only [nnField, BitVec.getLsbD_extractLsb', BitVec.getLsbD_append, hi, h0]
  simp

/-- Formats XY and XYN: the family. -/
@[simp] theorem opField_xyn (op x y n : Nibble) : opField (op ++ x ++ y ++ n) = op := by
  apply BitVec.eq_of_getLsbD_eq
  intro i hi
  have h0 : ¬ 12 + i < 4 := by omega
  have h1 : ¬ 12 + i - 4 < 4 := by omega
  have h2 : ¬ 12 + i - 4 - 4 < 4 := by omega
  have h3 : 12 + i - 4 - 4 - 4 = i := by omega
  simp only [opField, BitVec.getLsbD_extractLsb', BitVec.getLsbD_append, hi, h0, h1, h2, h3]
  simp

/-- Formats XY and XYN: X. -/
@[simp] theorem xField_xyn (op x y n : Nibble) : xField (op ++ x ++ y ++ n) = x := by
  apply BitVec.eq_of_getLsbD_eq
  intro i hi
  have h0 : ¬ 8 + i < 4 := by omega
  have h1 : ¬ 8 + i - 4 < 4 := by omega
  have h2 : 8 + i - 4 - 4 = i := by omega
  simp only [xField, BitVec.getLsbD_extractLsb', BitVec.getLsbD_append, hi, h0, h1, h2]
  simp

/-- Formats XY and XYN: Y. -/
@[simp] theorem yField_xyn (op x y n : Nibble) : yField (op ++ x ++ y ++ n) = y := by
  apply BitVec.eq_of_getLsbD_eq
  intro i hi
  have h0 : ¬ 4 + i < 4 := by omega
  have h1 : 4 + i - 4 = i := by omega
  simp only [yField, BitVec.getLsbD_extractLsb', BitVec.getLsbD_append, hi, h0, h1]
  simp

/-- Formats XY and XYN: N. -/
@[simp] theorem nField_xyn (op x y n : Nibble) : nField (op ++ x ++ y ++ n) = n := by
  apply BitVec.eq_of_getLsbD_eq
  intro i hi
  have h0 : 0 + i < 4 := by omega
  simp only [nField, BitVec.getLsbD_extractLsb', BitVec.getLsbD_append, hi, h0]
  simp

/-- A word from its family and NNN. -/
theorem word_eq_nnn (w : Word) : opField w ++ nnnField w = w := by
  apply BitVec.eq_of_getLsbD_eq
  intro i hi
  simp only [opField, nnnField, BitVec.getLsbD_extractLsb', BitVec.getLsbD_append]
  split
  · simp [*]
  · have h0 : i - 12 < 4 := by omega
    have h1 : 12 + (i - 12) = i := by omega
    simp [h0, h1]

/-- A word from its family, X and NN. -/
theorem word_eq_xnn (w : Word) : opField w ++ xField w ++ nnField w = w := by
  apply BitVec.eq_of_getLsbD_eq
  intro i hi
  simp only [opField, xField, nnField, BitVec.getLsbD_extractLsb', BitVec.getLsbD_append]
  split
  · simp [*]
  · split
    · have h0 : 8 + (i - 8) = i := by omega
      simp [*]
    · have h0 : i - 8 - 4 < 4 := by omega
      have h1 : 12 + (i - 8 - 4) = i := by omega
      simp [h0, h1]

/-- NN from Y and N. -/
theorem nnField_eq_yn (w : Word) : nnField w = yField w ++ nField w := by
  apply BitVec.eq_of_getLsbD_eq
  intro i hi
  simp only [nnField, yField, nField, BitVec.getLsbD_extractLsb', BitVec.getLsbD_append]
  split
  · simp [*]
  · have h0 : i - 4 < 4 := by omega
    have h1 : 4 + (i - 4) = i := by omega
    simp [h0, h1, hi]

/-- A word from its family, X, Y and N. -/
theorem word_eq_xyn (w : Word) : opField w ++ xField w ++ yField w ++ nField w = w := by
  apply BitVec.eq_of_getLsbD_eq
  intro i hi
  simp only [opField, xField, yField, nField, BitVec.getLsbD_extractLsb', BitVec.getLsbD_append]
  split
  · simp [*]
  · split
    · have h0 : 4 + (i - 4) = i := by omega
      simp [*]
    · split
      · have h0 : 8 + (i - 4 - 4) = i := by omega
        simp [*]
      · have h0 : i - 4 - 4 - 4 < 4 := by omega
        have h1 : 12 + (i - 4 - 4 - 4) = i := by omega
        simp [h0, h1]

/-- Mask 0xF000 keeps the family. -/
theorem and_maskF000 (w : Word) : w &&& 0xF000#16 = opField w ++ 0#12 := by
  apply BitVec.eq_of_getLsbD_eq
  intro i hi
  simp only [opField, BitVec.getLsbD_and, BitVec.getLsbD_append, BitVec.getLsbD_extractLsb']
  interval_cases i <;> simp

/-- Mask 0xF00F keeps the family and N. -/
theorem and_maskF00F (w : Word) : w &&& 0xF00F#16 = opField w ++ 0#8 ++ nField w := by
  apply BitVec.eq_of_getLsbD_eq
  intro i hi
  simp only [opField, nField, BitVec.getLsbD_and, BitVec.getLsbD_append, BitVec.getLsbD_extractLsb']
  interval_cases i <;> simp

/-- Mask 0xF0FF keeps the family and NN. -/
theorem and_maskF0FF (w : Word) : w &&& 0xF0FF#16 = opField w ++ 0#4 ++ nnField w := by
  apply BitVec.eq_of_getLsbD_eq
  intro i hi
  simp only [opField, nnField, BitVec.getLsbD_and, BitVec.getLsbD_append, BitVec.getLsbD_extractLsb']
  interval_cases i <;> simp

/-- The bytes of a word, put together again, are the word (R90). -/
@[simp] theorem bytesWord_wordBytes (w : Word) : bytesWord (w.extractLsb' 8 8) (w.extractLsb' 0 8) = w := by
  apply BitVec.eq_of_getLsbD_eq
  intro i hi
  simp only [bytesWord, BitVec.getLsbD_extractLsb', BitVec.getLsbD_append]
  split
  · simp [*]
  · have h0 : i - 8 < 8 := by omega
    have h1 : 8 + (i - 8) = i := by omega
    simp [h0, h1]

/-- A 16-bit table word is the word itself. -/
@[simp] theorem tableWord_toNat (w : Word) : tableWord 16 w.toNat = w := by
  have h : w.toNat % 2 ^ 16 = w.toNat := Nat.mod_eq_of_lt w.isLt
  rw [tableWord, h]
  simp

end Sys2Proof
end

