-- ==== Sys2Proof/Laws/Draw.lean ====
section
/-! SUPPORT. The framebuffer pixel by pixel: what toggling, one sprite row and a whole sprite do to every pixel of the
grid (44_display.md R201, R203, R205). -/

namespace Sys2Proof.Machine

/-- Two framebuffers with the same pixels are equal. -/
theorem Frame.ext_pixel {f g : Frame} (h : ∀ px py, px < 64 → py < 32 → f.pixel px py = g.pixel px py) : f = g := by
  refine Vector.ext fun y hy => BitVec.eq_of_getLsbD_eq fun x hx => ?_
  simpa [Frame.pixel, hy] using h x y hx hy

@[simp] theorem Frame.pixel_allOff (px py : Nat) : Frame.allOff.pixel px py = false := by
  simp [Frame.pixel, Frame.allOff]

/-- Toggling inverts the one pixel if it lies on the grid. -/
theorem Frame.pixel_toggle (f : Frame) (px py qx qy : Nat) :
    (f.toggle px py).pixel qx qy
      = (f.pixel qx qy ^^ decide (qx = px ∧ qy = py ∧ px < 64 ∧ py < 32)) := by
  unfold Frame.toggle
  split <;> rename_i hin
  · simp only [Config.fbWidth, Config.fbHeight] at hin
    simp only [Frame.pixel]
    split <;> rename_i hq
    · rw [Vector.getElem_set]
      by_cases hy : py = qy
      · subst hy
        by_cases hx : qx = px
        · subst hx
          simp [hin]
        · simp [hin, hx, Ne.symm hx, BitVec.getLsbD_twoPow]
      · simp [hy, Ne.symm hy]
    · have : ¬ qy = py := by simp only [Config.fbHeight] at hq; omega
      simp [this]
  · simp only [Config.fbWidth, Config.fbHeight] at hin
    have : ¬ (qx = px ∧ qy = py ∧ px < 64 ∧ py < 32) := fun h => hin ⟨h.2.2.1, h.2.2.2⟩
    simp [this]

/-- One pixel of a row. -/
theorem Frame.pixel_xorPixel (f : Frame) (byte : Byte) (x0 py c qx qy : Nat) :
    (f.xorPixel byte x0 py c).pixel qx qy
      = (f.pixel qx qy ^^ (byte.getLsbD (7 - c) && decide (qx = x0 + c ∧ qy = py ∧ x0 + c < 64 ∧ py < 32))) := by
  unfold Frame.xorPixel
  split <;> rename_i hb
  · rw [Frame.pixel_toggle, hb, Bool.true_and]
  · simp [hb]

/-- One sprite row: the bits of the byte, most significant first, XORed into columns `x0` to `x0 + 7` of row `py` as far
as they lie on the grid. -/
theorem Frame.pixel_xorRow (f : Frame) (byte : Byte) (x0 py qx qy : Nat) :
    (f.xorRow byte x0 py).pixel qx qy
      = (f.pixel qx qy ^^
          (decide (qy = py ∧ x0 ≤ qx ∧ qx < x0 + 8 ∧ qx < 64 ∧ qy < 32) && byte.getLsbD (7 - (qx - x0)))) := by
  have hr : List.range 8 = [0, 1, 2, 3, 4, 5, 6, 7] := rfl
  simp only [Frame.xorRow, hr, List.foldl_cons, List.foldl_nil, Frame.pixel_xorPixel]
  by_cases hin : qy = py ∧ x0 ≤ qx ∧ qx < x0 + 8 ∧ qx < 64 ∧ qy < 32
  · obtain ⟨rfl, h1, h2, h3, h4⟩ := hin
    obtain ⟨c, rfl⟩ := Nat.exists_eq_add_of_le h1
    have hc : c = 0 ∨ c = 1 ∨ c = 2 ∨ c = 3 ∨ c = 4 ∨ c = 5 ∨ c = 6 ∨ c = 7 := by omega
    rcases hc with rfl | rfl | rfl | rfl | rfl | rfl | rfl | rfl <;> simp_all
  · have off : ∀ c, c < 8 → decide (qx = x0 + c ∧ qy = py ∧ x0 + c < 64 ∧ py < 32) = false := by
      intro c hc
      refine decide_eq_false fun h => hin ?_
      omega
    rw [off 0 (by decide), off 1 (by decide), off 2 (by decide), off 3 (by decide), off 4 (by decide),
      off 5 (by decide), off 6 (by decide), off 7 (by decide), decide_eq_false hin]
    simp

/-- A whole sprite: row `r` of the sprite goes to row `py + r`; nothing outside its 8 columns and its rows changes. -/
theorem Frame.pixel_xorSprite (f : Frame) (x0 py : Nat) (rows : List Byte) (qx qy : Nat) :
    (f.xorSprite x0 py rows).pixel qx qy
      = (f.pixel qx qy ^^
          (decide (x0 ≤ qx ∧ qx < x0 + 8 ∧ py ≤ qy ∧ qy < py + rows.length ∧ qx < 64 ∧ qy < 32)
            && (rows.getD (qy - py) 0).getLsbD (7 - (qx - x0)))) := by
  induction rows generalizing f py with
  | nil =>
    have : ¬ (x0 ≤ qx ∧ qx < x0 + 8 ∧ py ≤ qy ∧ qy < py + ([] : List Byte).length ∧ qx < 64 ∧ qy < 32) := by
      simp only [List.length_nil]; omega
    simp [Frame.xorSprite]
  | cons b rows ih =>
    simp only [Frame.xorSprite, ih, Frame.pixel_xorRow, List.length_cons, Bool.xor_assoc]
    congr 1
    by_cases hy : qy = py
    · subst hy
      have h1 : ¬ (qy + 1 ≤ qy) := by omega
      simp [h1]
    · by_cases hlt : py < qy
      · have h1 : qy - py = (qy - (py + 1)) + 1 := by omega
        have h2 : (py + 1 ≤ qy) = (py ≤ qy) := by simp; omega
        have h3 : (qy < py + 1 + rows.length) = (qy < py + (rows.length + 1)) := by simp; omega
        simp [hy, h1, h2, h3]
      · have h1 : ¬ (py + 1 ≤ qy) := by omega
        have h2 : ¬ (py ≤ qy) := by omega
        simp [hy, h1, h2]

end Sys2Proof.Machine
end

