-- ==== Sys2Proof/Laws/State.lean ====
section
/-! SUPPORT. What each update of State leaves in each field, one lemma per field per update, true by `rfl`, so that no
later proof unfolds a record update; and the registers read through `State.reg`. -/

namespace Sys2Proof.Machine

/-! ### `setReg` -/

@[simp] theorem State.setReg_regs (s : State) (i : Nibble) (v : Byte) : (s.setReg i v).regs = s.regs.set i.toNat v i.isLt := rfl
@[simp] theorem State.setReg_ri (s : State) (i : Nibble) (v : Byte) : (s.setReg i v).ri = s.ri := rfl
@[simp] theorem State.setReg_pc (s : State) (i : Nibble) (v : Byte) : (s.setReg i v).pc = s.pc := rfl
@[simp] theorem State.setReg_stack (s : State) (i : Nibble) (v : Byte) : (s.setReg i v).stack = s.stack := rfl
@[simp] theorem State.setReg_dt (s : State) (i : Nibble) (v : Byte) : (s.setReg i v).dt = s.dt := rfl
@[simp] theorem State.setReg_st (s : State) (i : Nibble) (v : Byte) : (s.setReg i v).st = s.st := rfl
@[simp] theorem State.setReg_fb (s : State) (i : Nibble) (v : Byte) : (s.setReg i v).fb = s.fb := rfl
@[simp] theorem State.setReg_mem (s : State) (i : Nibble) (v : Byte) : (s.setReg i v).mem = s.mem := rfl
@[simp] theorem State.setReg_lfsr (s : State) (i : Nibble) (v : Byte) : (s.setReg i v).lfsr = s.lfsr := rfl
@[simp] theorem State.setReg_fault (s : State) (i : Nibble) (v : Byte) : (s.setReg i v).fault = s.fault := rfl
@[simp] theorem State.setReg_frames (s : State) (i : Nibble) (v : Byte) : (s.setReg i v).frames = s.frames := rfl
@[simp] theorem State.setReg_phase (s : State) (i : Nibble) (v : Byte) : (s.setReg i v).phase = s.phase := rfl
@[simp] theorem State.setReg_params (s : State) (i : Nibble) (v : Byte) : (s.setReg i v).params = s.params := rfl
@[simp] theorem State.setReg_inputs (s : State) (i : Nibble) (v : Byte) : (s.setReg i v).inputs = s.inputs := rfl

/-! ### `setRi` -/

@[simp] theorem State.setRi_regs (s : State) (v : Word) : (s.setRi v).regs = s.regs := rfl
@[simp] theorem State.setRi_ri (s : State) (v : Word) : (s.setRi v).ri = v := rfl
@[simp] theorem State.setRi_pc (s : State) (v : Word) : (s.setRi v).pc = s.pc := rfl
@[simp] theorem State.setRi_stack (s : State) (v : Word) : (s.setRi v).stack = s.stack := rfl
@[simp] theorem State.setRi_dt (s : State) (v : Word) : (s.setRi v).dt = s.dt := rfl
@[simp] theorem State.setRi_st (s : State) (v : Word) : (s.setRi v).st = s.st := rfl
@[simp] theorem State.setRi_fb (s : State) (v : Word) : (s.setRi v).fb = s.fb := rfl
@[simp] theorem State.setRi_mem (s : State) (v : Word) : (s.setRi v).mem = s.mem := rfl
@[simp] theorem State.setRi_lfsr (s : State) (v : Word) : (s.setRi v).lfsr = s.lfsr := rfl
@[simp] theorem State.setRi_fault (s : State) (v : Word) : (s.setRi v).fault = s.fault := rfl
@[simp] theorem State.setRi_frames (s : State) (v : Word) : (s.setRi v).frames = s.frames := rfl
@[simp] theorem State.setRi_phase (s : State) (v : Word) : (s.setRi v).phase = s.phase := rfl
@[simp] theorem State.setRi_params (s : State) (v : Word) : (s.setRi v).params = s.params := rfl
@[simp] theorem State.setRi_inputs (s : State) (v : Word) : (s.setRi v).inputs = s.inputs := rfl
@[simp] theorem State.setRi_reg (s : State) (v : Word) (j : Nibble) : (s.setRi v).reg j = s.reg j := rfl

/-! ### `setDt` -/

@[simp] theorem State.setDt_regs (s : State) (v : Byte) : (s.setDt v).regs = s.regs := rfl
@[simp] theorem State.setDt_ri (s : State) (v : Byte) : (s.setDt v).ri = s.ri := rfl
@[simp] theorem State.setDt_pc (s : State) (v : Byte) : (s.setDt v).pc = s.pc := rfl
@[simp] theorem State.setDt_stack (s : State) (v : Byte) : (s.setDt v).stack = s.stack := rfl
@[simp] theorem State.setDt_dt (s : State) (v : Byte) : (s.setDt v).dt = v := rfl
@[simp] theorem State.setDt_st (s : State) (v : Byte) : (s.setDt v).st = s.st := rfl
@[simp] theorem State.setDt_fb (s : State) (v : Byte) : (s.setDt v).fb = s.fb := rfl
@[simp] theorem State.setDt_mem (s : State) (v : Byte) : (s.setDt v).mem = s.mem := rfl
@[simp] theorem State.setDt_lfsr (s : State) (v : Byte) : (s.setDt v).lfsr = s.lfsr := rfl
@[simp] theorem State.setDt_fault (s : State) (v : Byte) : (s.setDt v).fault = s.fault := rfl
@[simp] theorem State.setDt_frames (s : State) (v : Byte) : (s.setDt v).frames = s.frames := rfl
@[simp] theorem State.setDt_phase (s : State) (v : Byte) : (s.setDt v).phase = s.phase := rfl
@[simp] theorem State.setDt_params (s : State) (v : Byte) : (s.setDt v).params = s.params := rfl
@[simp] theorem State.setDt_inputs (s : State) (v : Byte) : (s.setDt v).inputs = s.inputs := rfl
@[simp] theorem State.setDt_reg (s : State) (v : Byte) (j : Nibble) : (s.setDt v).reg j = s.reg j := rfl

/-! ### `setSt` -/

@[simp] theorem State.setSt_regs (s : State) (v : Byte) : (s.setSt v).regs = s.regs := rfl
@[simp] theorem State.setSt_ri (s : State) (v : Byte) : (s.setSt v).ri = s.ri := rfl
@[simp] theorem State.setSt_pc (s : State) (v : Byte) : (s.setSt v).pc = s.pc := rfl
@[simp] theorem State.setSt_stack (s : State) (v : Byte) : (s.setSt v).stack = s.stack := rfl
@[simp] theorem State.setSt_dt (s : State) (v : Byte) : (s.setSt v).dt = s.dt := rfl
@[simp] theorem State.setSt_st (s : State) (v : Byte) : (s.setSt v).st = v := rfl
@[simp] theorem State.setSt_fb (s : State) (v : Byte) : (s.setSt v).fb = s.fb := rfl
@[simp] theorem State.setSt_mem (s : State) (v : Byte) : (s.setSt v).mem = s.mem := rfl
@[simp] theorem State.setSt_lfsr (s : State) (v : Byte) : (s.setSt v).lfsr = s.lfsr := rfl
@[simp] theorem State.setSt_fault (s : State) (v : Byte) : (s.setSt v).fault = s.fault := rfl
@[simp] theorem State.setSt_frames (s : State) (v : Byte) : (s.setSt v).frames = s.frames := rfl
@[simp] theorem State.setSt_phase (s : State) (v : Byte) : (s.setSt v).phase = s.phase := rfl
@[simp] theorem State.setSt_params (s : State) (v : Byte) : (s.setSt v).params = s.params := rfl
@[simp] theorem State.setSt_inputs (s : State) (v : Byte) : (s.setSt v).inputs = s.inputs := rfl
@[simp] theorem State.setSt_reg (s : State) (v : Byte) (j : Nibble) : (s.setSt v).reg j = s.reg j := rfl

/-! ### `setLfsr` -/

@[simp] theorem State.setLfsr_regs (s : State) (v : Byte) : (s.setLfsr v).regs = s.regs := rfl
@[simp] theorem State.setLfsr_ri (s : State) (v : Byte) : (s.setLfsr v).ri = s.ri := rfl
@[simp] theorem State.setLfsr_pc (s : State) (v : Byte) : (s.setLfsr v).pc = s.pc := rfl
@[simp] theorem State.setLfsr_stack (s : State) (v : Byte) : (s.setLfsr v).stack = s.stack := rfl
@[simp] theorem State.setLfsr_dt (s : State) (v : Byte) : (s.setLfsr v).dt = s.dt := rfl
@[simp] theorem State.setLfsr_st (s : State) (v : Byte) : (s.setLfsr v).st = s.st := rfl
@[simp] theorem State.setLfsr_fb (s : State) (v : Byte) : (s.setLfsr v).fb = s.fb := rfl
@[simp] theorem State.setLfsr_mem (s : State) (v : Byte) : (s.setLfsr v).mem = s.mem := rfl
@[simp] theorem State.setLfsr_lfsr (s : State) (v : Byte) : (s.setLfsr v).lfsr = v := rfl
@[simp] theorem State.setLfsr_fault (s : State) (v : Byte) : (s.setLfsr v).fault = s.fault := rfl
@[simp] theorem State.setLfsr_frames (s : State) (v : Byte) : (s.setLfsr v).frames = s.frames := rfl
@[simp] theorem State.setLfsr_phase (s : State) (v : Byte) : (s.setLfsr v).phase = s.phase := rfl
@[simp] theorem State.setLfsr_params (s : State) (v : Byte) : (s.setLfsr v).params = s.params := rfl
@[simp] theorem State.setLfsr_inputs (s : State) (v : Byte) : (s.setLfsr v).inputs = s.inputs := rfl
@[simp] theorem State.setLfsr_reg (s : State) (v : Byte) (j : Nibble) : (s.setLfsr v).reg j = s.reg j := rfl

/-! ### `setPc` -/

@[simp] theorem State.setPc_regs (s : State) (v : Word) : (s.setPc v).regs = s.regs := rfl
@[simp] theorem State.setPc_ri (s : State) (v : Word) : (s.setPc v).ri = s.ri := rfl
@[simp] theorem State.setPc_pc (s : State) (v : Word) : (s.setPc v).pc = v := rfl
@[simp] theorem State.setPc_stack (s : State) (v : Word) : (s.setPc v).stack = s.stack := rfl
@[simp] theorem State.setPc_dt (s : State) (v : Word) : (s.setPc v).dt = s.dt := rfl
@[simp] theorem State.setPc_st (s : State) (v : Word) : (s.setPc v).st = s.st := rfl
@[simp] theorem State.setPc_fb (s : State) (v : Word) : (s.setPc v).fb = s.fb := rfl
@[simp] theorem State.setPc_mem (s : State) (v : Word) : (s.setPc v).mem = s.mem := rfl
@[simp] theorem State.setPc_lfsr (s : State) (v : Word) : (s.setPc v).lfsr = s.lfsr := rfl
@[simp] theorem State.setPc_fault (s : State) (v : Word) : (s.setPc v).fault = s.fault := rfl
@[simp] theorem State.setPc_frames (s : State) (v : Word) : (s.setPc v).frames = s.frames := rfl
@[simp] theorem State.setPc_phase (s : State) (v : Word) : (s.setPc v).phase = s.phase := rfl
@[simp] theorem State.setPc_params (s : State) (v : Word) : (s.setPc v).params = s.params := rfl
@[simp] theorem State.setPc_inputs (s : State) (v : Word) : (s.setPc v).inputs = s.inputs := rfl
@[simp] theorem State.setPc_reg (s : State) (v : Word) (j : Nibble) : (s.setPc v).reg j = s.reg j := rfl

/-! ### `advance` -/

@[simp] theorem State.advance_regs (s : State) : (s.advance).regs = s.regs := rfl
@[simp] theorem State.advance_ri (s : State) : (s.advance).ri = s.ri := rfl
@[simp] theorem State.advance_pc (s : State) : (s.advance).pc = s.pc + 2 := rfl
@[simp] theorem State.advance_stack (s : State) : (s.advance).stack = s.stack := rfl
@[simp] theorem State.advance_dt (s : State) : (s.advance).dt = s.dt := rfl
@[simp] theorem State.advance_st (s : State) : (s.advance).st = s.st := rfl
@[simp] theorem State.advance_fb (s : State) : (s.advance).fb = s.fb := rfl
@[simp] theorem State.advance_mem (s : State) : (s.advance).mem = s.mem := rfl
@[simp] theorem State.advance_lfsr (s : State) : (s.advance).lfsr = s.lfsr := rfl
@[simp] theorem State.advance_fault (s : State) : (s.advance).fault = s.fault := rfl
@[simp] theorem State.advance_frames (s : State) : (s.advance).frames = s.frames := rfl
@[simp] theorem State.advance_phase (s : State) : (s.advance).phase = .running := rfl
@[simp] theorem State.advance_params (s : State) : (s.advance).params = s.params := rfl
@[simp] theorem State.advance_inputs (s : State) : (s.advance).inputs = s.inputs := rfl
@[simp] theorem State.advance_reg (s : State) (j : Nibble) : (s.advance).reg j = s.reg j := rfl

/-! ### `push` -/

@[simp] theorem State.push_regs (s : State) (v : Word) : (s.push v).regs = s.regs := rfl
@[simp] theorem State.push_ri (s : State) (v : Word) : (s.push v).ri = s.ri := rfl
@[simp] theorem State.push_pc (s : State) (v : Word) : (s.push v).pc = s.pc := rfl
@[simp] theorem State.push_stack (s : State) (v : Word) : (s.push v).stack = s.stack ++ [v] := rfl
@[simp] theorem State.push_dt (s : State) (v : Word) : (s.push v).dt = s.dt := rfl
@[simp] theorem State.push_st (s : State) (v : Word) : (s.push v).st = s.st := rfl
@[simp] theorem State.push_fb (s : State) (v : Word) : (s.push v).fb = s.fb := rfl
@[simp] theorem State.push_mem (s : State) (v : Word) : (s.push v).mem = s.mem := rfl
@[simp] theorem State.push_lfsr (s : State) (v : Word) : (s.push v).lfsr = s.lfsr := rfl
@[simp] theorem State.push_fault (s : State) (v : Word) : (s.push v).fault = s.fault := rfl
@[simp] theorem State.push_frames (s : State) (v : Word) : (s.push v).frames = s.frames := rfl
@[simp] theorem State.push_phase (s : State) (v : Word) : (s.push v).phase = s.phase := rfl
@[simp] theorem State.push_params (s : State) (v : Word) : (s.push v).params = s.params := rfl
@[simp] theorem State.push_inputs (s : State) (v : Word) : (s.push v).inputs = s.inputs := rfl
@[simp] theorem State.push_reg (s : State) (v : Word) (j : Nibble) : (s.push v).reg j = s.reg j := rfl

/-! ### `dropTop` -/

@[simp] theorem State.dropTop_regs (s : State) : (s.dropTop).regs = s.regs := rfl
@[simp] theorem State.dropTop_ri (s : State) : (s.dropTop).ri = s.ri := rfl
@[simp] theorem State.dropTop_pc (s : State) : (s.dropTop).pc = s.pc := rfl
@[simp] theorem State.dropTop_stack (s : State) : (s.dropTop).stack = s.stack.dropLast := rfl
@[simp] theorem State.dropTop_dt (s : State) : (s.dropTop).dt = s.dt := rfl
@[simp] theorem State.dropTop_st (s : State) : (s.dropTop).st = s.st := rfl
@[simp] theorem State.dropTop_fb (s : State) : (s.dropTop).fb = s.fb := rfl
@[simp] theorem State.dropTop_mem (s : State) : (s.dropTop).mem = s.mem := rfl
@[simp] theorem State.dropTop_lfsr (s : State) : (s.dropTop).lfsr = s.lfsr := rfl
@[simp] theorem State.dropTop_fault (s : State) : (s.dropTop).fault = s.fault := rfl
@[simp] theorem State.dropTop_frames (s : State) : (s.dropTop).frames = s.frames := rfl
@[simp] theorem State.dropTop_phase (s : State) : (s.dropTop).phase = s.phase := rfl
@[simp] theorem State.dropTop_params (s : State) : (s.dropTop).params = s.params := rfl
@[simp] theorem State.dropTop_inputs (s : State) : (s.dropTop).inputs = s.inputs := rfl
@[simp] theorem State.dropTop_reg (s : State) (j : Nibble) : (s.dropTop).reg j = s.reg j := rfl

/-! ### `setFb` -/

@[simp] theorem State.setFb_regs (s : State) (f : Frame) : (s.setFb f).regs = s.regs := rfl
@[simp] theorem State.setFb_ri (s : State) (f : Frame) : (s.setFb f).ri = s.ri := rfl
@[simp] theorem State.setFb_pc (s : State) (f : Frame) : (s.setFb f).pc = s.pc := rfl
@[simp] theorem State.setFb_stack (s : State) (f : Frame) : (s.setFb f).stack = s.stack := rfl
@[simp] theorem State.setFb_dt (s : State) (f : Frame) : (s.setFb f).dt = s.dt := rfl
@[simp] theorem State.setFb_st (s : State) (f : Frame) : (s.setFb f).st = s.st := rfl
@[simp] theorem State.setFb_fb (s : State) (f : Frame) : (s.setFb f).fb = f := rfl
@[simp] theorem State.setFb_mem (s : State) (f : Frame) : (s.setFb f).mem = s.mem := rfl
@[simp] theorem State.setFb_lfsr (s : State) (f : Frame) : (s.setFb f).lfsr = s.lfsr := rfl
@[simp] theorem State.setFb_fault (s : State) (f : Frame) : (s.setFb f).fault = s.fault := rfl
@[simp] theorem State.setFb_frames (s : State) (f : Frame) : (s.setFb f).frames = s.frames := rfl
@[simp] theorem State.setFb_phase (s : State) (f : Frame) : (s.setFb f).phase = s.phase := rfl
@[simp] theorem State.setFb_params (s : State) (f : Frame) : (s.setFb f).params = s.params := rfl
@[simp] theorem State.setFb_inputs (s : State) (f : Frame) : (s.setFb f).inputs = s.inputs := rfl
@[simp] theorem State.setFb_reg (s : State) (f : Frame) (j : Nibble) : (s.setFb f).reg j = s.reg j := rfl

/-! ### `publish` -/

@[simp] theorem State.publish_regs (s : State) : (s.publish).regs = s.regs := rfl
@[simp] theorem State.publish_ri (s : State) : (s.publish).ri = s.ri := rfl
@[simp] theorem State.publish_pc (s : State) : (s.publish).pc = s.pc := rfl
@[simp] theorem State.publish_stack (s : State) : (s.publish).stack = s.stack := rfl
@[simp] theorem State.publish_dt (s : State) : (s.publish).dt = s.dt := rfl
@[simp] theorem State.publish_st (s : State) : (s.publish).st = s.st := rfl
@[simp] theorem State.publish_fb (s : State) : (s.publish).fb = s.fb := rfl
@[simp] theorem State.publish_mem (s : State) : (s.publish).mem = s.mem := rfl
@[simp] theorem State.publish_lfsr (s : State) : (s.publish).lfsr = s.lfsr := rfl
@[simp] theorem State.publish_fault (s : State) : (s.publish).fault = s.fault := rfl
@[simp] theorem State.publish_frames (s : State) : (s.publish).frames = s.frames ++ [s.fb] := rfl
@[simp] theorem State.publish_phase (s : State) : (s.publish).phase = s.phase := rfl
@[simp] theorem State.publish_params (s : State) : (s.publish).params = s.params := rfl
@[simp] theorem State.publish_inputs (s : State) : (s.publish).inputs = s.inputs := rfl
@[simp] theorem State.publish_reg (s : State) (j : Nibble) : (s.publish).reg j = s.reg j := rfl

/-! ### `takeFault` -/

@[simp] theorem State.takeFault_regs (s : State) (r : FaultRecord) : (s.takeFault r).regs = s.regs := rfl
@[simp] theorem State.takeFault_ri (s : State) (r : FaultRecord) : (s.takeFault r).ri = s.ri := rfl
@[simp] theorem State.takeFault_pc (s : State) (r : FaultRecord) : (s.takeFault r).pc = s.pc := rfl
@[simp] theorem State.takeFault_stack (s : State) (r : FaultRecord) : (s.takeFault r).stack = s.stack := rfl
@[simp] theorem State.takeFault_dt (s : State) (r : FaultRecord) : (s.takeFault r).dt = s.dt := rfl
@[simp] theorem State.takeFault_st (s : State) (r : FaultRecord) : (s.takeFault r).st = s.st := rfl
@[simp] theorem State.takeFault_fb (s : State) (r : FaultRecord) : (s.takeFault r).fb = s.fb := rfl
@[simp] theorem State.takeFault_mem (s : State) (r : FaultRecord) : (s.takeFault r).mem = s.mem := rfl
@[simp] theorem State.takeFault_lfsr (s : State) (r : FaultRecord) : (s.takeFault r).lfsr = s.lfsr := rfl
@[simp] theorem State.takeFault_fault (s : State) (r : FaultRecord) : (s.takeFault r).fault = some r := rfl
@[simp] theorem State.takeFault_frames (s : State) (r : FaultRecord) : (s.takeFault r).frames = s.frames := rfl
@[simp] theorem State.takeFault_phase (s : State) (r : FaultRecord) : (s.takeFault r).phase = s.phase := rfl
@[simp] theorem State.takeFault_params (s : State) (r : FaultRecord) : (s.takeFault r).params = s.params := rfl
@[simp] theorem State.takeFault_inputs (s : State) (r : FaultRecord) : (s.takeFault r).inputs = s.inputs := rfl
@[simp] theorem State.takeFault_reg (s : State) (r : FaultRecord) (j : Nibble) : (s.takeFault r).reg j = s.reg j := rfl

/-! ### `writeResultThenFlag` -/

@[simp] theorem State.writeResultThenFlag_ri (s : State) (x : Nibble) (result flag : Byte) :
    (s.writeResultThenFlag x result flag).ri = s.ri := rfl
@[simp] theorem State.writeResultThenFlag_pc (s : State) (x : Nibble) (result flag : Byte) :
    (s.writeResultThenFlag x result flag).pc = s.pc := rfl
@[simp] theorem State.writeResultThenFlag_stack (s : State) (x : Nibble) (result flag : Byte) :
    (s.writeResultThenFlag x result flag).stack = s.stack := rfl
@[simp] theorem State.writeResultThenFlag_dt (s : State) (x : Nibble) (result flag : Byte) :
    (s.writeResultThenFlag x result flag).dt = s.dt := rfl
@[simp] theorem State.writeResultThenFlag_st (s : State) (x : Nibble) (result flag : Byte) :
    (s.writeResultThenFlag x result flag).st = s.st := rfl
@[simp] theorem State.writeResultThenFlag_fb (s : State) (x : Nibble) (result flag : Byte) :
    (s.writeResultThenFlag x result flag).fb = s.fb := rfl
@[simp] theorem State.writeResultThenFlag_mem (s : State) (x : Nibble) (result flag : Byte) :
    (s.writeResultThenFlag x result flag).mem = s.mem := rfl
@[simp] theorem State.writeResultThenFlag_lfsr (s : State) (x : Nibble) (result flag : Byte) :
    (s.writeResultThenFlag x result flag).lfsr = s.lfsr := rfl
@[simp] theorem State.writeResultThenFlag_fault (s : State) (x : Nibble) (result flag : Byte) :
    (s.writeResultThenFlag x result flag).fault = s.fault := rfl
@[simp] theorem State.writeResultThenFlag_frames (s : State) (x : Nibble) (result flag : Byte) :
    (s.writeResultThenFlag x result flag).frames = s.frames := rfl
@[simp] theorem State.writeResultThenFlag_phase (s : State) (x : Nibble) (result flag : Byte) :
    (s.writeResultThenFlag x result flag).phase = s.phase := rfl
@[simp] theorem State.writeResultThenFlag_params (s : State) (x : Nibble) (result flag : Byte) :
    (s.writeResultThenFlag x result flag).params = s.params := rfl
@[simp] theorem State.writeResultThenFlag_inputs (s : State) (x : Nibble) (result flag : Byte) :
    (s.writeResultThenFlag x result flag).inputs = s.inputs := rfl

/-! ### `writeFlagThenResult` -/

@[simp] theorem State.writeFlagThenResult_ri (s : State) (x : Nibble) (flag result : Byte) :
    (s.writeFlagThenResult x flag result).ri = s.ri := rfl
@[simp] theorem State.writeFlagThenResult_pc (s : State) (x : Nibble) (flag result : Byte) :
    (s.writeFlagThenResult x flag result).pc = s.pc := rfl
@[simp] theorem State.writeFlagThenResult_stack (s : State) (x : Nibble) (flag result : Byte) :
    (s.writeFlagThenResult x flag result).stack = s.stack := rfl
@[simp] theorem State.writeFlagThenResult_dt (s : State) (x : Nibble) (flag result : Byte) :
    (s.writeFlagThenResult x flag result).dt = s.dt := rfl
@[simp] theorem State.writeFlagThenResult_st (s : State) (x : Nibble) (flag result : Byte) :
    (s.writeFlagThenResult x flag result).st = s.st := rfl
@[simp] theorem State.writeFlagThenResult_fb (s : State) (x : Nibble) (flag result : Byte) :
    (s.writeFlagThenResult x flag result).fb = s.fb := rfl
@[simp] theorem State.writeFlagThenResult_mem (s : State) (x : Nibble) (flag result : Byte) :
    (s.writeFlagThenResult x flag result).mem = s.mem := rfl
@[simp] theorem State.writeFlagThenResult_lfsr (s : State) (x : Nibble) (flag result : Byte) :
    (s.writeFlagThenResult x flag result).lfsr = s.lfsr := rfl
@[simp] theorem State.writeFlagThenResult_fault (s : State) (x : Nibble) (flag result : Byte) :
    (s.writeFlagThenResult x flag result).fault = s.fault := rfl
@[simp] theorem State.writeFlagThenResult_frames (s : State) (x : Nibble) (flag result : Byte) :
    (s.writeFlagThenResult x flag result).frames = s.frames := rfl
@[simp] theorem State.writeFlagThenResult_phase (s : State) (x : Nibble) (flag result : Byte) :
    (s.writeFlagThenResult x flag result).phase = s.phase := rfl
@[simp] theorem State.writeFlagThenResult_params (s : State) (x : Nibble) (flag result : Byte) :
    (s.writeFlagThenResult x flag result).params = s.params := rfl
@[simp] theorem State.writeFlagThenResult_inputs (s : State) (x : Nibble) (flag result : Byte) :
    (s.writeFlagThenResult x flag result).inputs = s.inputs := rfl

/-! ### Registers -/

/-- A register after a register write: the written one holds the value, every other one is as before. -/
theorem State.reg_setReg (s : State) (i j : Nibble) (v : Byte) :
    (s.setReg i v).reg j = if j = i then v else s.reg j := by
  simp only [State.reg, State.setReg, Vector.getElem_set, BitVec.toNat_inj, eq_comm]

@[simp] theorem State.reg_setReg_same (s : State) (i : Nibble) (v : Byte) : (s.setReg i v).reg i = v := by
  simp [State.reg_setReg]

theorem State.reg_setReg_other (s : State) {i j : Nibble} (v : Byte) (h : j ≠ i) :
    (s.setReg i v).reg j = s.reg j := by
  simp [State.reg_setReg, h]

/-- Two register files that agree register by register are equal. -/
theorem State.regs_ext {s t : State} (h : ∀ r, t.reg r = s.reg r) : t.regs = s.regs := by
  refine Vector.ext fun k hk => ?_
  have hr := h (BitVec.ofNat 4 k)
  have hk' : k % 16 = k := Nat.mod_eq_of_lt hk
  simpa [State.reg, BitVec.toNat_ofNat, hk'] using hr

/-- 8XY4's two writes register by register: the flag wins when X = F (R125). -/
theorem State.reg_writeResultThenFlag (s : State) (x j : Nibble) (result flag : Byte) :
    (s.writeResultThenFlag x result flag).reg j
      = if j = flagIndex then flag else if j = x then result else s.reg j := by
  simp [State.writeResultThenFlag, State.reg_setReg]

/-- The two writes of 8XY5, 8XY6, 8XY7 and 8XYE register by register: the result wins when X = F (R125). -/
theorem State.reg_writeFlagThenResult (s : State) (x j : Nibble) (flag result : Byte) :
    (s.writeFlagThenResult x flag result).reg j
      = if j = x then result else if j = flagIndex then flag else s.reg j := by
  simp [State.writeFlagThenResult, State.reg_setReg]

@[simp] theorem State.halted_iff (s : State) : s.halted = true ↔ s.fault ≠ none := by
  simp [State.halted, Option.isSome_iff_ne_none]

@[simp] theorem State.halted_eq_false_iff (s : State) : s.halted = false ↔ s.fault = none := by
  simp [State.halted]

end Sys2Proof.Machine
end

