-- ==== Sys2Proof/Laws/Exec.lean ====
section
/-! SUPPORT. What an instruction can do at all (`exec_cases`), what a CPU step can do (`State.cpuStep_cases`) and what the
delivery of each event does: the inversion lemmas later proofs cite instead of unfolding the machine. -/

namespace Sys2Proof.Machine

/-- The effect every instruction that completes has on the parts of the state other than registers and timers. -/
structure ExecEffect (s t : State) : Prop where
  mem : t.mem = s.mem
  fault : t.fault = s.fault
  inputs : t.inputs = s.inputs
  params : t.params = s.params
  phase : t.phase = .running
  frames : (t.frames = s.frames ∧ t.fb = s.fb) ∨ t.frames = s.frames ++ [t.fb]
  lfsr : t.lfsr = s.lfsr ∨ t.lfsr = lfsrStep s.lfsr
  ri : t.ri = s.ri ∨ ∃ nnn : Addr12, t.ri = nnn.toWord
  flow :
    (t.stack = s.stack ∧
      (t.pc = s.pc + 2 ∨ t.pc = s.pc + 2 + 2 ∨ (∃ nnn : Addr12, t.pc = nnn.toWord) ∨
        ∃ (b : Byte) (nnn : Addr12), t.pc = b.toWord + nnn.toWord)) ∨
    (∃ v, s.stack = t.stack ++ [v] ∧ t.pc = v) ∨
    (s.stackFull = false ∧ t.stack = s.stack ++ [s.pc + 2] ∧ ∃ nnn : Addr12, t.pc = nnn.toWord)

/-- The three ways an execute phase can fault (60_exceptions.md R238). -/
inductive ExecRaises (s : State) : Instr → FaultRecord → Prop where
  | underflow (h : s.stack = []) : ExecRaises s .ret (.stackUnderflow s.pc (encode .ret))
  | overflow (nnn : Addr12) (h : s.stackFull = true) :
      ExecRaises s (.call nnn) (.stackOverflow s.pc (encode (.call nnn)))
  | sprite (x y n : Nibble) (h : s.spriteBeyondMemory n = true) :
      ExecRaises s (.drw x y n) (.spriteReadOutOfRange s.pc (encode (.drw x y n)) 0x1000#16)

theorem ExecRaises.recordPc {s : State} {i : Instr} {r : FaultRecord} (h : ExecRaises s i r) :
    r.recordPc = s.pc := by cases h <;> rfl

/-- When the stack is full (10_state.md R25). -/
theorem State.stackFull_iff (s : State) :
    s.stackFull = true ↔ ∃ depth, s.params.stackDepth = some depth ∧ depth ≤ s.stack.length := by
  unfold State.stackFull State.sp
  cases s.params.stackDepth <;> simp

/-- A push fits exactly when the stack is not full. -/
theorem State.hasRoom_iff (s : State) : s.hasRoom ↔ s.stackFull = false := by
  unfold State.hasRoom State.stackFull State.sp
  cases s.params.stackDepth <;> simp

/-- When the last row of a sprite lies beyond memory (44_display.md R204), in numbers. -/
theorem State.spriteBeyondMemory_iff (s : State) (n : Nibble) :
    s.spriteBeyondMemory n = true ↔ 1 ≤ n.toNat ∧ 0xFFF < s.ri.toNat + n.toNat - 1 := by
  unfold State.spriteBeyondMemory
  rw [decide_eq_true_iff]
  show (1 ≤ n.toNat ∧ 0xFFF < s.ri.toNat + (n.toNat - 1)) ↔ _
  omega

/-- A sprite lies in memory exactly when no row lies beyond it. -/
theorem State.spriteInMemory_iff (s : State) (n : Nibble) :
    s.spriteInMemory n ↔ s.spriteBeyondMemory n = false := by
  rw [← Bool.not_eq_true, State.spriteBeyondMemory_iff]
  unfold State.spriteInMemory
  omega

/-- A completed effect that leaves stack, framebuffer, LFSR and index register alone and falls through. -/
theorem ExecEffect.fallThrough {s t : State} (mem : t.mem = s.mem) (fault : t.fault = s.fault)
    (inputs : t.inputs = s.inputs) (params : t.params = s.params) (phase : t.phase = .running) (frames : t.frames = s.frames) (fb : t.fb = s.fb)
    (lfsr : t.lfsr = s.lfsr) (ri : t.ri = s.ri) (stack : t.stack = s.stack) (pc : t.pc = s.pc + 2) :
    ExecEffect s t :=
  ⟨mem, fault, inputs, params, phase, .inl ⟨frames, fb⟩, .inl lfsr, .inl ri, .inl ⟨stack, .inl pc⟩⟩

/-- The effect of a conditional skip. -/
theorem ExecEffect.skip (s : State) (taken : Bool) : ExecEffect s (s.advance.setPc (s.skipTarget taken)) := by
  refine ⟨rfl, rfl, rfl, rfl, rfl, .inl ⟨rfl, rfl⟩, .inl rfl, .inl rfl, .inl ⟨rfl, ?_⟩⟩
  cases taken
  · exact .inl rfl
  · exact .inr (.inl rfl)

/-- Every instruction answers a next state: it completes with an `ExecEffect`, or it raises one of the three faults, which
changes the latch and nothing else. -/
theorem exec_cases (i : Instr) (s : State) :
    (∃ t, exec i s = .next t ∧ ExecEffect s t) ∨
      ∃ r, exec i s = .next (s.takeFault r) ∧ ExecRaises s i r := by
  cases i with
  | cls => exact .inl ⟨_, rfl, rfl, rfl, rfl, rfl, rfl, .inr rfl, .inl rfl, .inl rfl, .inl ⟨rfl, .inl rfl⟩⟩
  | ret =>
    rcases List.eq_nil_or_concat s.stack with h | ⟨l, v, h⟩
    · exact .inr ⟨_, by simp [exec, execRet, State.top?, h, State.raise], .underflow h⟩
    · refine .inl ⟨s.advance.dropTop.setPc v, by simp [exec, execRet, State.top?, h], rfl, rfl, rfl, rfl, rfl,
        .inl ⟨rfl, rfl⟩, .inl rfl, .inl rfl, .inr (.inl ⟨v, ?_, rfl⟩)⟩
      simp [h]
  | jp nnn => exact .inl ⟨_, rfl, rfl, rfl, rfl, rfl, rfl, .inl ⟨rfl, rfl⟩, .inl rfl, .inl rfl,
      .inl ⟨rfl, .inr (.inr (.inl ⟨nnn, rfl⟩))⟩⟩
  | call nnn =>
    by_cases h : s.stackFull = true
    · exact .inr ⟨_, by simp only [exec, execCall, if_pos h]; rfl, .overflow nnn h⟩
    · exact .inl ⟨(s.advance.push s.nextPc).setPc (absoluteTarget nnn), by simp only [exec, execCall, if_neg h],
        rfl, rfl, rfl, rfl, rfl, .inl ⟨rfl, rfl⟩, .inl rfl, .inl rfl,
        .inr (.inr ⟨Bool.eq_false_of_not_eq_true h, rfl, nnn, rfl⟩)⟩
  | seImm x nn => exact .inl ⟨_, rfl, .skip s _⟩
  | sneImm x nn => exact .inl ⟨_, rfl, .skip s _⟩
  | seReg x y => exact .inl ⟨_, rfl, .skip s _⟩
  | sneReg x y => exact .inl ⟨_, rfl, .skip s _⟩
  | ldI nnn => exact .inl ⟨_, rfl, rfl, rfl, rfl, rfl, rfl, .inl ⟨rfl, rfl⟩, .inl rfl, .inr ⟨nnn, rfl⟩, .inl ⟨rfl, .inl rfl⟩⟩
  | jpV0 nnn => exact .inl ⟨_, rfl, rfl, rfl, rfl, rfl, rfl, .inl ⟨rfl, rfl⟩, .inl rfl, .inl rfl,
      .inl ⟨rfl, .inr (.inr (.inr ⟨s.reg 0, nnn, rfl⟩))⟩⟩
  | rnd x nn => exact .inl ⟨_, rfl, rfl, rfl, rfl, rfl, rfl, .inl ⟨rfl, rfl⟩, .inr rfl, .inl rfl, .inl ⟨rfl, .inl rfl⟩⟩
  | drw x y n =>
    by_cases h : s.spriteBeyondMemory n = true
    · exact .inr ⟨_, by simp only [exec, execDrw, if_pos h]; rfl, .sprite x y n h⟩
    · refine .inl ⟨(s.advance.setFb
          (s.fb.xorSprite (s.startColumn x) (s.startRow y) (s.spriteRows n))).publish, ?_,
        rfl, rfl, rfl, rfl, rfl, .inr rfl, .inl rfl, .inl rfl, .inl ⟨rfl, .inl rfl⟩⟩
      simp only [exec, execDrw, if_neg h]
  | _ => exact .inl ⟨_, rfl, .fallThrough rfl rfl rfl rfl rfl rfl rfl rfl rfl rfl rfl⟩

/-! ## Fetch and the CPU step -/

/-- Fetch succeeds exactly when both bytes are in memory, and then gives the two bytes big-endian (R121). -/
theorem State.fetch_eq (s : State) : s.fetch = if s.pc.toNat < 0xFFF then some s.wordAtPc else none := by
  simp only [State.fetch, Memory.readWord?, Config.maxAddr, State.wordAtPc]
  by_cases h : s.pc.toNat < 0xFFF
  · rw [if_pos h, if_pos (by omega)]
  · rw [if_neg h, if_neg (by omega)]

/-- What a CPU step of a machine that is not halted does: it runs the decoded instruction, or it raises the fetch fault,
or the decode fault (R121, R123, R124; 60_exceptions.md R239). -/
theorem State.cpuStep_cases (s : State) :
    (s.canFetch ∧ ∃ i, decodeWord s.wordAtPc = .ok i ∧ s.cpuStep = exec i s) ∨
    (¬ s.canFetch ∧ s.cpuStep = .next (s.takeFault (.fetchOutOfRange s.pc))) ∨
    (s.canFetch ∧ (∃ e, decodeWord s.wordAtPc = .error e) ∧
      s.cpuStep = .next (s.takeFault (.illegalOpcode s.pc s.wordAtPc))) := by
  unfold State.cpuStep State.canFetch
  rw [State.fetch_eq]
  by_cases h : s.pc.toNat < 0xFFF
  · rw [if_pos h]
    cases hd : decodeWord s.wordAtPc with
    | ok i => exact .inl ⟨h, i, rfl, by simp [hd]⟩
    | error e => exact .inr (.inr ⟨h, ⟨e, rfl⟩, by simp [hd, State.raise]⟩)
  · rw [if_neg h]
    exact .inr (.inl ⟨h, rfl⟩)

theorem State.cpuTick_halted {s : State} (h : s.fault ≠ none) : s.cpuTick = .next s := by
  have : s.halted = true := by simpa using h
  simp [State.cpuTick, this]

theorem State.cpuTick_running {s : State} (h : s.fault = none) : s.cpuTick = s.cpuStep := by
  have : s.halted = false := by simpa using h
  simp [State.cpuTick, this]

/-- What a CpuTick does, once and for all: nothing if halted; else a completed instruction, or a fault that sets the
latch to a record naming `pc` and changes nothing else. -/
theorem State.cpuTick_cases (s : State) :
    (s.fault ≠ none ∧ s.cpuTick = .next s) ∨
    (s.fault = none ∧ s.canFetch ∧ ∃ i t, decodeWord s.wordAtPc = .ok i ∧ exec i s = .next t ∧ ExecEffect s t ∧
      s.cpuTick = .next t) ∨
    (s.fault = none ∧ ∃ r, r.recordPc = s.pc ∧ s.cpuTick = .next (s.takeFault r)) := by
  by_cases hf : s.fault = none
  · rw [State.cpuTick_running hf]
    rcases s.cpuStep_cases with ⟨hc, i, hd, he⟩ | ⟨-, he⟩ | ⟨-, -, he⟩
    · rcases exec_cases i s with ⟨t, ht, heff⟩ | ⟨r, hr, hraise⟩
      · exact .inr (.inl ⟨hf, hc, i, t, hd, ht, heff, he.trans ht⟩)
      · exact .inr (.inr ⟨hf, r, hraise.recordPc, he.trans hr⟩)
    · exact .inr (.inr ⟨hf, _, rfl, he⟩)
    · exact .inr (.inr ⟨hf, _, rfl, he⟩)
  · exact .inl ⟨hf, State.cpuTick_halted hf⟩

/-! ## Steps -/

/-- A step with no event listed is a CpuTick. -/
theorem step_of_inputs_nil {s : State} (h : s.inputs = []) : step s = s.cpuTick := by
  simp [step, State.nextEvent, h, deliver]

/-- A step delivers the oldest event. -/
theorem step_of_inputs_cons {s : State} {e : Event} {rest : List Event} (h : s.inputs = e :: rest) :
    step s = deliver e { s with inputs := rest } := by
  simp [step, State.nextEvent, h]

/-- The state after the tick is taken off differs from the one before in the listed events only. -/
theorem State.TickNext.eq {s u : State} (h : s.TickNext u) : u = { s with inputs := u.inputs } := by
  rcases h with ⟨-, rfl⟩ | ⟨rest, -, rfl⟩ <;> rfl

/-- A step whose next event is a CpuTick, listed or implied, is a CpuTick of the state with it taken off. -/
theorem State.TickNext.step_eq {s u : State} (h : s.TickNext u) : step s = u.cpuTick := by
  rcases h with ⟨hi, rfl⟩ | ⟨rest, hi, rfl⟩
  · exact step_of_inputs_nil hi
  · exact step_of_inputs_cons hi

@[simp] theorem run_zero (s : State) : Host.Core.run Sys2Proof.core 0 s = .next s := rfl

/-- A run goes on from the state its first step answers. -/
theorem run_succ_of_next {s t : State} (h : step s = .next t) (k : Nat) :
    Host.Core.run Sys2Proof.core (k + 1) s = Host.Core.run Sys2Proof.core k t := by
  have hs : Sys2Proof.core.step s = .next t := h
  simp only [Host.Core.run, hs]

/-! ## Timer tick and load -/

theorem State.timerTick_halted {s : State} (h : s.fault ≠ none) : s.timerTick = s := by
  have : s.halted = true := by simpa using h
  simp [State.timerTick, this]

theorem State.timerTick_running {s : State} (h : s.fault = none) :
    s.timerTick = { s with dt := saturatingPred s.dt, st := saturatingPred s.st } := by
  have : s.halted = false := by simpa using h
  simp [State.timerTick, this, State.setDt, State.setSt]

/-- A counter goes down by one and stops at 0 (R245). -/
theorem saturatingPred_toNat (v : Byte) : (saturatingPred v).toNat = v.toNat - 1 := by
  unfold saturatingPred
  split <;> rename_i h
  · simp [h]
  · have h1 : v.toNat ≠ 0 := fun h0 => h (BitVec.eq_of_toNat_eq (by simpa using h0))
    have h2 : (1 : Byte).toNat = 1 := rfl
    rw [BitVec.toNat_sub_of_le (by rw [BitVec.le_def]; omega), h2]

/-- A load is accepted in phase Empty, with no fault, for a program that fits (R285). -/
theorem State.loadAccepted_iff (s : State) (bytes : List Byte) :
    s.loadAccepted bytes = true ↔ s.phase = .empty ∧ s.fault = none ∧ bytes.length ≤ 3584 := by
  simp [State.loadAccepted, programFits, and_assoc]

/-- An accepted load copies the program and sets the phase. -/
theorem State.hostLoad_accepted {s : State} {bytes : List Byte}
    (h : s.phase = .empty ∧ s.fault = none ∧ bytes.length ≤ 3584) :
    s.hostLoad bytes = { s with mem := s.mem.writeBytes 0x200 bytes, phase := .loaded } := by
  have hacc := (State.loadAccepted_iff s bytes).2 h
  simp [State.hostLoad, hacc]

/-- A refused load changes nothing. -/
theorem State.hostLoad_refused {s : State} {bytes : List Byte}
    (h : ¬ (s.phase = .empty ∧ s.fault = none ∧ bytes.length ≤ 3584)) : s.hostLoad bytes = s := by
  have hacc := mt (State.loadAccepted_iff s bytes).1 h
  simp [State.hostLoad, hacc]

end Sys2Proof.Machine
end

