-- ==== Sys2Proof/Laws/Memory.lean ====
section
/-! SUPPORT. Memory: a byte read after a write, the canonical form kept by every memory operation. -/

namespace Sys2Proof.Machine

@[simp] theorem Memory.read_nil (a : Nat) : Memory.read [] a = Memory.resetByte a := rfl

theorem Memory.read_cons (b : Nat) (v : Byte) (m : Memory) (a : Nat) :
    Memory.read ((b, v) :: m) a = if b = a then v else Memory.read m a := by
  simp only [Memory.read, Memory.lookup]
  split <;> rfl

/-- No entry below the first listed address: such an address reads its reset content. -/
theorem Memory.read_of_lt {m : Memory} {a : Nat} (h : ∀ c ∈ m, a < c.1) : m.read a = Memory.resetByte a := by
  induction m with
  | nil => rfl
  | cons c m ih =>
    obtain ⟨b, v⟩ := c
    have hb : a < b := h (b, v) (by simp)
    rw [Memory.read_cons, if_neg (by omega)]
    exact ih fun d hd => h d (by simp [hd])

/-- A byte read after a write, for a memory whose addresses rise. -/
theorem Memory.read_write {m : Memory} (hm : m.Pairwise (fun c d => c.1 < d.1)) (a : Nat) (v : Byte) (b : Nat) :
    (m.write a v).read b = if b = a then v else m.read b := by
  induction m with
  | nil =>
    simp only [Memory.write]
    split <;> rename_i hv
    · by_cases h : b = a <;> simp [h, hv]
    · simp only [Memory.read_cons, eq_comm (a := a)]
  | cons c m ih =>
    obtain ⟨e, u⟩ := c
    rw [List.pairwise_cons] at hm
    obtain ⟨hlt, hp⟩ := hm
    simp only at hlt
    have ihm := ih hp
    simp only [Memory.write]
    split <;> rename_i hae
    · split <;> rename_i hv
      · by_cases h : b = a
        · subst h
          rw [if_pos rfl, hv]
          refine Memory.read_of_lt fun d hd => ?_
          rcases List.mem_cons.1 hd with rfl | hd
          · exact hae
          · exact lt_trans hae (hlt d hd)
        · rw [if_neg h]
      · rw [Memory.read_cons]
        simp only [eq_comm (a := a)]
    · split <;> rename_i hae'
      · subst hae'
        split <;> rename_i hv
        · by_cases h : b = a
          · subst h
            rw [if_pos rfl, hv]
            exact Memory.read_of_lt hlt
          · rw [if_neg h, Memory.read_cons, if_neg (fun he => h he.symm)]
        · simp only [Memory.read_cons]
          by_cases h : b = a
          · simp [h]
          · simp [h, Ne.symm h]
      · rw [Memory.read_cons, ihm, Memory.read_cons]
        by_cases h : b = a
        · subst h
          have : e ≠ b := fun he => hae' he.symm
          simp [this]
        · simp [h]

/-- Every entry of a written memory is the written cell or an entry that was there. -/
theorem Memory.mem_write {m : Memory} {a : Nat} {v : Byte} {c : Host.Cell} (h : c ∈ m.write a v) :
    (c = (a, v) ∧ v ≠ Memory.resetByte a) ∨ c ∈ m := by
  induction m with
  | nil =>
    simp only [Memory.write] at h
    split at h
    · simp at h
    · rename_i hv
      exact .inl ⟨by simpa using h, hv⟩
  | cons d m ih =>
    obtain ⟨b, u⟩ := d
    simp only [Memory.write] at h
    split at h
    · split at h
      · exact .inr h
      · rename_i hv
        rcases List.mem_cons.1 h with rfl | h
        · exact .inl ⟨rfl, hv⟩
        · exact .inr h
    · split at h
      · split at h
        · exact .inr (List.mem_cons_of_mem _ h)
        · rename_i hv
          rcases List.mem_cons.1 h with rfl | h
          · exact .inl ⟨rfl, hv⟩
          · exact .inr (List.mem_cons_of_mem _ h)
      · rcases List.mem_cons.1 h with rfl | h
        · exact .inr (List.mem_cons_self ..)
        · rcases ih h with h | h
          · exact .inl h
          · exact .inr (List.mem_cons_of_mem _ h)

/-- A write keeps the addresses rising. -/
theorem Memory.pairwise_write {m : Memory} (hm : m.Pairwise (fun c d => c.1 < d.1)) (a : Nat) (v : Byte) :
    (m.write a v).Pairwise (fun c d => c.1 < d.1) := by
  induction m with
  | nil => simp only [Memory.write]; split <;> simp
  | cons c m ih =>
    obtain ⟨e, u⟩ := c
    rw [List.pairwise_cons] at hm
    obtain ⟨hlt, hp⟩ := hm
    simp only at hlt
    simp only [Memory.write]
    split <;> rename_i hae
    · split
      · exact List.pairwise_cons.2 ⟨hlt, hp⟩
      · refine List.pairwise_cons.2 ⟨fun d hd => ?_, List.pairwise_cons.2 ⟨hlt, hp⟩⟩
        rcases List.mem_cons.1 hd with rfl | hd
        · exact hae
        · exact lt_trans hae (hlt d hd)
    · split <;> rename_i hae'
      · subst hae'
        split
        · exact hp
        · exact List.pairwise_cons.2 ⟨hlt, hp⟩
      · refine List.pairwise_cons.2 ⟨fun d hd => ?_, ih hp⟩
        rcases Memory.mem_write hd with ⟨rfl, -⟩ | hd
        · simp only; omega
        · exact hlt d hd

/-- A write inside memory keeps the canonical form. -/
theorem Memory.wf_write {m : Memory} (hm : m.wf) {a : Nat} (ha : a ≤ Config.maxAddr) (v : Byte) :
    (m.write a v).wf := by
  refine ⟨Memory.pairwise_write hm.1 a v, fun c hc => ?_⟩
  rcases Memory.mem_write hc with ⟨rfl, hv⟩ | hc
  · exact ⟨ha, hv⟩
  · exact hm.2 c hc

/-- A run of writes inside memory keeps the canonical form. -/
theorem Memory.wf_writeBytes {m : Memory} (hm : m.wf) {a : Nat} {bs : List Byte}
    (h : a + bs.length ≤ Config.memSize) : (m.writeBytes a bs).wf := by
  induction bs generalizing m a with
  | nil => exact hm
  | cons v vs ih =>
    simp only [List.length_cons] at h
    exact ih (Memory.wf_write hm (by simp only [Config.maxAddr, Config.memSize] at *; omega) v) (by omega)

/-- A byte read after a run of writes: the written byte if the address is one of the run's, else as before. -/
theorem Memory.read_writeBytes {m : Memory} (hm : m.Pairwise (fun c d => c.1 < d.1)) (a : Nat) (bs : List Byte)
    (b : Nat) :
    (m.writeBytes a bs).read b = if h : a ≤ b ∧ b < a + bs.length then bs[b - a]'(by omega) else m.read b := by
  induction bs generalizing m a with
  | nil =>
    have : ¬ (a ≤ b ∧ b < a + ([] : List Byte).length) := by simp
    rw [dif_neg this]
    rfl
  | cons v vs ih =>
    have hw := ih (Memory.pairwise_write hm a v) (a + 1)
    simp only [Memory.writeBytes]
    rw [hw, Memory.read_write hm]
    simp only [List.length_cons]
    by_cases h1 : a + 1 ≤ b ∧ b < a + 1 + vs.length
    · rw [dif_pos h1, dif_pos (by omega)]
      have : b - a = (b - (a + 1)) + 1 := by omega
      simp [this]
    · rw [dif_neg h1]
      by_cases h2 : b = a
      · subst h2
        simp
      · rw [if_neg h2, dif_neg (by omega)]

@[simp] theorem Memory.wf_nil : Memory.wf [] := ⟨List.Pairwise.nil, by simp⟩

/-- Memory after reset is in canonical form. -/
theorem State.reset_mem_wf : State.reset.mem.wf := Memory.wf_nil

/-- The bytes of memory after reset, for a font of 80 bytes (10_state.md R34). -/
theorem read_initialMemory {p : Params} (h : p.fontTable.length = Config.fontLen) (a : Nat) :
    (initialMemory p).read a = initialByte p.fontTable a := by
  unfold initialMemory
  rw [Memory.read_writeBytes List.Pairwise.nil, Memory.read_nil, Memory.resetByte]
  by_cases hr : Config.fontBase ≤ a ∧ a < Config.fontBase + Config.fontLen
  · rw [dif_pos (by rw [h]; exact hr), initialByte, if_pos hr, List.getD_eq_getElem]
  · rw [dif_neg (by rw [h]; exact hr), initialByte, initialByte, if_neg hr, if_neg hr]

/-- Memory after reset is in canonical form, for a font of 80 bytes. -/
theorem initialMemory_wf {p : Params} (h : p.fontTable.length = Config.fontLen) : (initialMemory p).wf :=
  Memory.wf_writeBytes Memory.wf_nil (by rw [h]; decide)

/-- Legal parameters, field by field (00_scope.md R9). -/
theorem Params.legal_iff (p : Params) :
    p.legal = true ↔
      (∀ depth, p.stackDepth = some depth → 1 ≤ depth) ∧ 4 ≤ p.prngSeed.toNat ∧
        (p.fontTable.length = Config.fontLen ∧ p.fontTable.take 5 = [0xF0#8, 0x90#8, 0x90#8, 0x90#8, 0xF0#8]) ∧
        0 < p.cpuHz := by
  obtain ⟨depth, seed, font, hz⟩ := p
  cases depth <;>
    simp [Params.legal, Config.legalStackDepth, Config.legalSeed, Config.legalFont, Config.legalRate, and_assoc]

/-- The host load keeps the canonical form, accepted or refused. -/
theorem State.hostLoad_mem_wf {s : State} (h : s.mem.wf) (bytes : List Byte) : (s.hostLoad bytes).mem.wf := by
  unfold State.hostLoad
  split
  · rename_i hacc
    simp only [State.loadAccepted, programFits, Bool.and_eq_true, decide_eq_true_eq] at hacc
    refine Memory.wf_writeBytes h ?_
    have := hacc.2
    simp only [Config.maxProg, Config.progBase, Config.memSize] at *
    omega
  · exact h

/-- Placing a word at the fetch address keeps the canonical form. -/
theorem State.placeWord_mem_wf {s : State} (h : s.mem.wf) (w : Word) : (s.placeWord w).mem.wf := by
  refine Memory.wf_writeBytes h ?_
  simp only [State.placeAddr, wordBytes, List.length_cons, List.length_nil, Config.memSize, Config.maxAddr,
    Config.progBase]
  split
  · omega
  · decide

end Sys2Proof.Machine
end

