-- ==== Sys2Proof/Laws/PerInstr.lean ====
section
/-! SUPPORT. Statements made of every instruction, one lemma per constructor. -/

namespace Sys2Proof.Laws.EncodedFamily

/-- The opcode family an instruction belongs to (30_encoding.md R96). -/
def family : Instr → Nibble

  | .cls => 0x0#4
  | .ret => 0x0#4
  | .jp _ => 0x1#4
  | .call _ => 0x2#4
  | .seImm _ _ => 0x3#4
  | .sneImm _ _ => 0x4#4
  | .seReg _ _ => 0x5#4
  | .ldImm _ _ => 0x6#4
  | .addImm _ _ => 0x7#4
  | .ldReg _ _ => 0x8#4
  | .orReg _ _ => 0x8#4
  | .andReg _ _ => 0x8#4
  | .xorReg _ _ => 0x8#4
  | .addReg _ _ => 0x8#4
  | .subReg _ _ => 0x8#4
  | .shr _ _ => 0x8#4
  | .subnReg _ _ => 0x8#4
  | .shl _ _ => 0x8#4
  | .sneReg _ _ => 0x9#4
  | .ldI _ => 0xA#4
  | .jpV0 _ => 0xB#4
  | .rnd _ _ => 0xC#4
  | .drw _ _ _ => 0xD#4
  | .ldFromDt _ => 0xF#4
  | .ldDt _ => 0xF#4
  | .ldSt _ => 0xF#4

/-- The word of an instruction lies in the instruction's own family (00_scope.md R11, 30_encoding.md R91): its top nibble
is the family's number. -/
def Statement (i : Instr) : Prop := opField (encode i) = family i

theorem cls : Statement .cls := rfl
theorem ret : Statement .ret := rfl
theorem jp (nnn : Addr12) : Statement (.jp nnn) := opField_nnn _ _
theorem call (nnn : Addr12) : Statement (.call nnn) := opField_nnn _ _
theorem seImm (x : Nibble) (nn : Byte) : Statement (.seImm x nn) := opField_xnn _ _ _
theorem sneImm (x : Nibble) (nn : Byte) : Statement (.sneImm x nn) := opField_xnn _ _ _
theorem seReg (x : Nibble) (y : Nibble) : Statement (.seReg x y) := opField_xyn _ _ _ _
theorem ldImm (x : Nibble) (nn : Byte) : Statement (.ldImm x nn) := opField_xnn _ _ _
theorem addImm (x : Nibble) (nn : Byte) : Statement (.addImm x nn) := opField_xnn _ _ _
theorem ldReg (x : Nibble) (y : Nibble) : Statement (.ldReg x y) := opField_xyn _ _ _ _
theorem orReg (x : Nibble) (y : Nibble) : Statement (.orReg x y) := opField_xyn _ _ _ _
theorem andReg (x : Nibble) (y : Nibble) : Statement (.andReg x y) := opField_xyn _ _ _ _
theorem xorReg (x : Nibble) (y : Nibble) : Statement (.xorReg x y) := opField_xyn _ _ _ _
theorem addReg (x : Nibble) (y : Nibble) : Statement (.addReg x y) := opField_xyn _ _ _ _
theorem subReg (x : Nibble) (y : Nibble) : Statement (.subReg x y) := opField_xyn _ _ _ _
theorem shr (x : Nibble) (y : Nibble) : Statement (.shr x y) := opField_xyn _ _ _ _
theorem subnReg (x : Nibble) (y : Nibble) : Statement (.subnReg x y) := opField_xyn _ _ _ _
theorem shl (x : Nibble) (y : Nibble) : Statement (.shl x y) := opField_xyn _ _ _ _
theorem sneReg (x : Nibble) (y : Nibble) : Statement (.sneReg x y) := opField_xyn _ _ _ _
theorem ldI (nnn : Addr12) : Statement (.ldI nnn) := opField_nnn _ _
theorem jpV0 (nnn : Addr12) : Statement (.jpV0 nnn) := opField_nnn _ _
theorem rnd (x : Nibble) (nn : Byte) : Statement (.rnd x nn) := opField_xnn _ _ _
theorem drw (x : Nibble) (y : Nibble) (n : Nibble) : Statement (.drw x y n) := opField_xyn _ _ _ _
theorem ldFromDt (x : Nibble) : Statement (.ldFromDt x) := opField_xnn _ _ _
theorem ldDt (x : Nibble) : Statement (.ldDt x) := opField_xnn _ _ _
theorem ldSt (x : Nibble) : Statement (.ldSt x) := opField_xnn _ _ _

end Sys2Proof.Laws.EncodedFamily
end

