-- ==== Sys2Proof/Tests/Slice0.lean ====
section
/-! SUPPORT. Tests. `test_…`: expected values written out from the spec's encodings (30_encoding.md R95) and its vectors
(95_test_vectors.md, cited as V-…), never from the model. `witness_…`: states and operands that meet the hypotheses of the
statements, at the boundaries of their ranges. -/

namespace Sys2Proof.Tests

-- One kernel check at a time: each of these is small, but all at once they need too many threads.
set_option Elab.async false

open Sys2Proof.Machine

/-! ## The small state the tests run on -/

/-- Reset and a load of nothing, with the vectors' example seed 0xAC (95_test_vectors.md, conventions). -/
def base : State :=
  { State.reset with lfsr := 0xAC#8, params := { Config.params with prngSeed := 0xAC#8 }, phase := .loaded }

/-- Other legal parameters: one stack entry, the smallest seed, the last font byte changed, a fractional rate. -/
def otherParams : Params :=
  { stackDepth := some 1, prngSeed := 0x04, fontTable := fontTable.take 79 ++ [0xFF], cpuHz := 1 / 2 }

/-- Registers set one by one. -/
def withRegs (values : List (Nibble × Byte)) (s : State) : State :=
  values.foldl (fun t v => t.setReg v.1 v.2) s

/-- The word at `pc` is `w`. -/
def atPc (s : State) (w : Word) : State := s.placeWord w

/-- The state a step answers. -/
def after (s : State) : State :=
  match step s with
  | .next t => t
  | _ => s

/-- The step answers a next state. -/
def goesOn (s : State) : Bool :=
  match step s with
  | .next _ => true
  | _ => false

/-- A step that goes on answers `after`. -/
theorem step_eq_after {s : State} (h : goesOn s = true) : step s = .next (after s) := by
  unfold goesOn at h
  unfold after
  split at h <;> simp_all

/-- The ALU vectors' start: x[1] = a, x[2] = b, x[F] = 0x77. -/
def alu (a b : Byte) (w : Word) : State := after (atPc (withRegs [(1, a), (2, b), (15, 0x77)] base) w)

/-- The display vectors' start: ri = 0x050, x[0] and x[1] the position. -/
def draw (x y : Byte) (w : Word) : State := after (atPc (withRegs [(0, x), (1, y)] (base.setRi 0x050)) w)

/-- The frame in which exactly the listed pixels (x, y) are on. -/
def picture (pixels : List (Nat × Nat)) : Frame :=
  pixels.foldl (fun f p => f.toggle p.1 p.2) Frame.allOff

/-! ## WellFormed: what the checks refuse -/

theorem test_program_of_3584_bytes_fits : programFits (List.replicate 3584 0) = true := by
  decide +kernel
theorem test_program_of_3585_bytes_is_refused : programFits (List.replicate 3585 0) = false := by
  decide +kernel
theorem test_seed_4_is_legal : Config.legalSeed 0x04 = true := by decide
theorem test_seed_3_is_refused : Config.legalSeed 0x03 = false := by decide
theorem test_depth_is_legal : Config.legalStackDepth (some 1) = true ∧ Config.legalStackDepth none = true := by decide
theorem test_depth_0_is_refused : Config.legalStackDepth (some 0) = false := by decide
theorem test_font_is_legal : Config.legalFont fontTable = true := by decide +kernel
theorem test_font_without_digit_0_is_refused : Config.legalFont (List.replicate 80 0) = false := by decide +kernel
theorem test_font_of_79_bytes_is_refused : Config.legalFont (fontTable.take 79) = false := by decide +kernel
theorem test_rate_0_is_refused : Config.legalRate 0 = false := by decide +kernel
theorem test_other_parameters_are_legal : otherParams.legal = true := by decide +kernel
theorem test_parameters_with_illegal_seed_are_refused :
    Params.legal { otherParams with prngSeed := 0x00 } = false := by decide +kernel
theorem test_every_operand_is_well_formed : (Instr.drw 0xF 0xF 0x0).wellFormed = true := by decide

/-! ## Decoding: one word for each row, bits 15 to 0 from its encoding column -/

theorem test_decode_cls : decodeWord 0b0000_0000_1110_0000 = .ok .cls := by decide
theorem test_decode_ret : decodeWord 0b0000_0000_1110_1110 = .ok .ret := by decide
theorem test_decode_jp : decodeWord 0b0001_1010_0000_0101 = .ok (.jp 0xA05) := by decide
theorem test_decode_call : decodeWord 0b0010_0011_0000_0001 = .ok (.call 0x301) := by decide
theorem test_decode_seImm : decodeWord 0b0011_1010_1111_1110 = .ok (.seImm 0xA 0xFE) := by decide
theorem test_decode_sneImm : decodeWord 0b0100_0011_0001_0001 = .ok (.sneImm 0x3 0x11) := by decide
theorem test_decode_seReg : decodeWord 0b0101_0001_0010_0000 = .ok (.seReg 0x1 0x2) := by decide
theorem test_decode_ldImm : decodeWord 0b0110_1010_0010_1011 = .ok (.ldImm 0xA 0x2B) := by decide
theorem test_decode_addImm : decodeWord 0b0111_0001_1000_0101 = .ok (.addImm 0x1 0x85) := by decide
theorem test_decode_ldReg : decodeWord 0b1000_1010_1011_0000 = .ok (.ldReg 0xA 0xB) := by decide
theorem test_decode_orReg : decodeWord 0b1000_1010_1011_0001 = .ok (.orReg 0xA 0xB) := by decide
theorem test_decode_andReg : decodeWord 0b1000_1010_1011_0010 = .ok (.andReg 0xA 0xB) := by decide
theorem test_decode_xorReg : decodeWord 0b1000_1010_1011_0011 = .ok (.xorReg 0xA 0xB) := by decide
theorem test_decode_addReg : decodeWord 0b1000_1010_1011_0100 = .ok (.addReg 0xA 0xB) := by decide
theorem test_decode_subReg : decodeWord 0b1000_1010_1011_0101 = .ok (.subReg 0xA 0xB) := by decide
theorem test_decode_shr : decodeWord 0b1000_1010_1011_0110 = .ok (.shr 0xA 0xB) := by decide
theorem test_decode_subnReg : decodeWord 0b1000_1010_1011_0111 = .ok (.subnReg 0xA 0xB) := by decide
theorem test_decode_shl : decodeWord 0b1000_1010_1011_1110 = .ok (.shl 0xA 0xB) := by decide
theorem test_decode_sneReg : decodeWord 0b1001_0001_0010_0000 = .ok (.sneReg 0x1 0x2) := by decide
theorem test_decode_ldI : decodeWord 0b1010_0000_0101_0001 = .ok (.ldI 0x051) := by decide
theorem test_decode_jpV0 : decodeWord 0b1011_0010_0000_1110 = .ok (.jpV0 0x20E) := by decide
theorem test_decode_rnd : decodeWord 0b1100_0011_1111_0000 = .ok (.rnd 0x3 0xF0) := by decide
theorem test_decode_drw : decodeWord 0b1101_0001_0010_1010 = .ok (.drw 0x1 0x2 0xA) := by decide
theorem test_decode_ldFromDt : decodeWord 0b1111_1011_0000_0111 = .ok (.ldFromDt 0xB) := by decide
theorem test_decode_ldDt : decodeWord 0b1111_1010_0001_0101 = .ok (.ldDt 0xA) := by decide
theorem test_decode_ldSt : decodeWord 0b1111_0010_0001_1000 = .ok (.ldSt 0x2) := by decide

/-- V-F32, V-F33, V-A41, V-D19, V-T12, V-T13: neighbours of legal words are no instructions. -/
theorem test_decode_rejects_neighbours :
    ([0x0000, 0x00E1, 0x00FE, 0x0123, 0x5121, 0x9121, 0x8128, 0x812D, 0x812F, 0xE09E, 0xE0A1, 0xF00A, 0xF01E, 0xF029,
      0xF033, 0xF055, 0xF065, 0xFF17] : List Word).all
        (fun w => decide (decodeWord w = .error (.unrecognizedOpcode w))) = true := by decide

/-- The first byte in memory is the high byte; the bytes after the instruction are left over (R90). -/
theorem test_decode_bytes_big_endian : decodeBytes [0x6A, 0x2B, 0x00] = .ok (.ldImm 0xA 0x2B, [0x00]) := by decide
theorem test_decode_one_byte_is_truncated : decodeBytes [0x6A] = .error .truncated := by decide
theorem test_decode_table_word : decodeTableWord 16 0xD12A = some (.drw 0x1 0x2 0xA) := by decide

/-! ## Reset and the host's questions -/

theorem test_reset_font_and_program_area :
    (List.range 5).map (fun k => State.reset.mem.read (0x050 + k)) = [0xF0, 0x90, 0x90, 0x90, 0xF0] ∧
      State.reset.mem.read 0x04F = 0 ∧ State.reset.mem.read 0x0A0 = 0 ∧ State.reset.mem.read 0x200 = 0 := by decide

/-- V-R7 with other parameters: a Reset event clears the fault and leaves that machine's seed and font. -/
theorem test_reset_event_keeps_parameters :
    (after { base.takeFault (.fetchOutOfRange 0xFFF) with params := otherParams, inputs := [.reset] }).fault = none ∧
      (after { base with params := otherParams, inputs := [.reset] }).lfsr = 0x04 ∧
      (after { base with params := otherParams, inputs := [.reset] }).mem.read 0x09F = 0xFF ∧
      (after { base with params := otherParams, inputs := [.reset] }).mem.read 0x050 = 0xF0 := by decide +kernel

/-- The first step after reset runs the placed word, from 0x200. -/
theorem test_with_fetch_word_runs_first :
    (after (State.reset.withFetchWord 16 0x6A2B)).reg 0xA = 0x2B ∧
      (after (State.reset.withFetchWord 16 0x6A2B)).pc = 0x202 := by decide +kernel

/-! ## Fetch (V-X2, V-X5 to V-X7, V-X9) -/

theorem test_fetch_at_odd_address :
    (after (atPc (base.setPc 0x203) 0x602A)).reg 0 = 0x2A ∧
      (after (atPc (base.setPc 0x203) 0x602A)).pc = 0x205 := by decide +kernel
theorem test_fetch_last_word :
    (after (atPc (base.setPc 0xFFE) 0x6007)).reg 0 = 0x07 ∧
      (after (atPc (base.setPc 0xFFE) 0x6007)).pc = 0x1000 := by decide +kernel
theorem test_fetch_half_word_faults :
    after (base.setPc 0xFFF) = (base.setPc 0xFFF).takeFault (.fetchOutOfRange 0xFFF) := by decide +kernel
theorem test_fetch_from_font :
    after (base.setPc 0x050) = (base.setPc 0x050).takeFault (.illegalOpcode 0x050 0xF090) := by decide +kernel

/-! ## Control flow -/

/-- V-F1. -/
theorem test_jp : (after (atPc (base.setPc 0x20C) 0x1206)).pc = 0x206 := by decide +kernel
/-- V-F6. -/
theorem test_call :
    (after (atPc (base.setPc 0x208) 0x220E)).pc = 0x20E ∧
      (after (atPc (base.setPc 0x208) 0x220E)).stack = [0x20A] := by decide +kernel
/-- V-F9. -/
theorem test_call_full :
    after (atPc { base with stack := List.replicate 16 0x202 } 0x2200) =
      (atPc { base with stack := List.replicate 16 0x202 } 0x2200).takeFault (.stackOverflow 0x200 0x2200) := by
  decide +kernel
/-- R235 with STACK_DEPTH 1, and with STACK_DEPTH unbounded (10_state.md R25). -/
theorem test_call_other_depths :
    (after (atPc { base with params := otherParams, stack := [0x202] } 0x2200)).fault =
        some (.stackOverflow 0x200 0x2200) ∧
      (after (atPc { base with params := { otherParams with stackDepth := none }, stack := List.replicate 16 0x202 }
        0x2200)).sp = 17 := by decide +kernel
/-- V-F13. -/
theorem test_ret :
    (after (atPc { base with stack := [0x20A, 0x300] } 0x00EE)).pc = 0x300 ∧
      (after (atPc { base with stack := [0x20A, 0x300] } 0x00EE)).stack = [0x20A] := by decide +kernel
/-- V-F11. -/
theorem test_ret_empty :
    after (atPc (base.setPc 0x210) 0x00EE) =
      (atPc (base.setPc 0x210) 0x00EE).takeFault (.stackUnderflow 0x210 0x00EE) := by decide +kernel
/-- V-F14. -/
theorem test_jpV0 : (after (atPc (withRegs [(0, 0x04)] base) 0xB20E)).pc = 0x212 := by decide +kernel
/-- V-F16. -/
theorem test_jpV0_beyond_memory : (after (atPc (withRegs [(0, 0xFF)] base) 0xBFFF)).pc = 0x10FE := by decide +kernel
/-- V-F22, V-F21, at 0x20A. -/
theorem test_seImm :
    (after (atPc (withRegs [(15, 1)] (base.setPc 0x20A)) 0x3F01)).pc = 0x20E ∧
      (after (atPc (withRegs [(0, 1)] (base.setPc 0x20A)) 0x3000)).pc = 0x20C := by decide +kernel
/-- V-F24, V-F25. -/
theorem test_sneImm :
    (after (atPc (withRegs [(3, 0x10)] (base.setPc 0x20A)) 0x4311)).pc = 0x20E ∧
      (after (atPc (withRegs [(3, 0x10)] (base.setPc 0x20A)) 0x4310)).pc = 0x20C := by decide +kernel
/-- V-F26, V-F27. -/
theorem test_seReg :
    (after (atPc (withRegs [(1, 7), (2, 7)] (base.setPc 0x20A)) 0x5120)).pc = 0x20E ∧
      (after (atPc (withRegs [(1, 7), (2, 8)] (base.setPc 0x20A)) 0x5120)).pc = 0x20C := by decide +kernel
/-- V-F29, V-F30. -/
theorem test_sneReg :
    (after (atPc (withRegs [(1, 1), (2, 2)] (base.setPc 0x20A)) 0x9120)).pc = 0x20E ∧
      (after (atPc (withRegs [(1, 2), (2, 2)] (base.setPc 0x20A)) 0x9120)).pc = 0x20C := by decide +kernel

/-! ## ALU -/

/-- V-A1. -/
theorem test_ldImm : (alu 0 0 0x6A2A).reg 0xA = 0x2A ∧ (alu 0 0 0x6A2A).reg 0xF = 0x77 := by decide +kernel
/-- V-A4. -/
theorem test_addImm_wraps : (alu 0xFE 0 0x7105).reg 1 = 0x03 ∧ (alu 0xFE 0 0x7105).reg 0xF = 0x77 := by decide +kernel
/-- V-A10. -/
theorem test_ldReg : (alu 0x11 0x33 0x8120).reg 1 = 0x33 ∧ (alu 0x11 0x33 0x8120).reg 2 = 0x33 := by decide +kernel
/-- V-A11. -/
theorem test_orReg : (alu 0xF0 0x0F 0x8121).reg 1 = 0xFF ∧ (alu 0xF0 0x0F 0x8121).reg 0xF = 0x77 := by decide +kernel
/-- V-A12. -/
theorem test_andReg : (alu 0xF0 0x3C 0x8122).reg 1 = 0x30 ∧ (alu 0xF0 0x3C 0x8122).reg 0xF = 0x77 := by decide +kernel
/-- V-A13. -/
theorem test_xorReg : (alu 0xF0 0x3C 0x8123).reg 1 = 0xCC ∧ (alu 0xF0 0x3C 0x8123).reg 0xF = 0x77 := by decide +kernel
/-- V-A15 (source example S3), V-A19. -/
theorem test_addReg :
    (alu 0xFF 0x01 0x8124).reg 1 = 0x00 ∧ (alu 0xFF 0x01 0x8124).reg 0xF = 1 ∧
      (alu 0x7F 0x80 0x8124).reg 1 = 0xFF ∧ (alu 0x7F 0x80 0x8124).reg 0xF = 0 := by decide +kernel
/-- V-A60: x[F] = 0x90, x[2] = 0x80, the flag stays. -/
theorem test_addReg_to_flag :
    (after (atPc (withRegs [(15, 0x90), (2, 0x80)] base) 0x8F24)).reg 0xF = 0x01 := by decide +kernel
/-- V-A20 (source example S4), V-A21. -/
theorem test_subReg :
    (alu 0x01 0x02 0x8125).reg 1 = 0xFF ∧ (alu 0x01 0x02 0x8125).reg 0xF = 1 ∧
      (alu 0x05 0x05 0x8125).reg 1 = 0x00 ∧ (alu 0x05 0x05 0x8125).reg 0xF = 0 := by decide +kernel
/-- V-A78: the subtrahend is the old x[F]. -/
theorem test_subReg_from_flag :
    (after (atPc (withRegs [(1, 0x03), (15, 0x05)] base) 0x81F5)).reg 1 = 0xFE ∧
      (after (atPc (withRegs [(1, 0x03), (15, 0x05)] base) 0x81F5)).reg 0xF = 1 := by decide +kernel
/-- V-A28, V-A29. -/
theorem test_shr :
    (alu 0xFF 0x55 0x8126).reg 1 = 0x7F ∧ (alu 0xFF 0x55 0x8126).reg 0xF = 1 ∧
      (alu 0x80 0x55 0x8126).reg 1 = 0x40 ∧ (alu 0x80 0x55 0x8126).reg 0xF = 0 := by decide +kernel
/-- V-A87. -/
theorem test_shr_of_flag : (after (atPc (withRegs [(15, 0x90)] base) 0x8FF6)).reg 0xF = 0x48 := by decide +kernel
/-- V-A30, V-A31. -/
theorem test_subnReg :
    (alu 0x02 0x01 0x8127).reg 1 = 0xFF ∧ (alu 0x02 0x01 0x8127).reg 0xF = 1 ∧
      (alu 0x01 0x03 0x8127).reg 1 = 0x02 ∧ (alu 0x01 0x03 0x8127).reg 0xF = 0 := by decide +kernel
/-- V-A35, V-A37. -/
theorem test_shl :
    (alu 0x81 0x55 0x812E).reg 1 = 0x02 ∧ (alu 0x81 0x55 0x812E).reg 0xF = 1 ∧
      (alu 0x7F 0x55 0x812E).reg 1 = 0xFE ∧ (alu 0x7F 0x55 0x812E).reg 0xF = 0 := by decide +kernel

/-! ## Index, random -/

/-- V-I3. -/
theorem test_ldI : (after (atPc base 0xAFFF)).ri = 0x0FFF ∧ (after (atPc base 0xAFFF)).pc = 0x202 := by decide +kernel
/-- V-C1, step 1. -/
theorem test_rnd : (after (atPc base 0xC3FF)).lfsr = 0xD6 ∧ (after (atPc base 0xC3FF)).reg 3 = 0xD6 := by decide +kernel
/-- V-C1, step 3: NN = 0 still advances the LFSR. -/
theorem test_rnd_zero_mask :
    (after (atPc { base with lfsr := 0xEB } 0xC400)).lfsr = 0x75 ∧
      (after (atPc { base with lfsr := 0xEB } 0xC400)).reg 4 = 0x00 := by decide +kernel
/-- V-L1, V-L2, V-L3, V-L7, the first states of each. -/
theorem test_lfsr_sequences :
    [1, 2, 3, 4].map (lfsrIterate · 0xAC) = [0xD6, 0xEB, 0x75, 0xBA] ∧
      [1, 2, 3, 4].map (lfsrIterate · 0xFF) = [0x7F, 0xBF, 0x5F, 0x2F] ∧
      [1, 2, 3, 4].map (lfsrIterate · 0x80) = [0xC0, 0xE0, 0x70, 0x38] ∧
      [1, 2, 3, 4].map (lfsrIterate · 0x04) = [0x82, 0xC1, 0xE0, 0x70] := by decide

/-! ## Display -/

/-- V-D17. -/
theorem test_cls :
    (after (atPc (base.setFb (picture [(0, 0), (63, 31)])) 0x00E0)).fb.toList = List.replicate 32 0 ∧
      (after (atPc (base.setFb (picture [(0, 0), (63, 31)])) 0x00E0)).frames.length = 1 := by decide +kernel
/-- V-D1; one frame, the same picture. -/
theorem test_drw :
    (draw 0x02 0x03 0xD015).fb.toList = (picture [(2, 3), (3, 3), (4, 3), (5, 3), (2, 4), (5, 4), (2, 5), (5, 5), (2, 6),
        (5, 6), (2, 7), (3, 7), (4, 7), (5, 7)]).toList ∧
      (draw 0x02 0x03 0xD015).frames.map Vector.toList = [(draw 0x02 0x03 0xD015).fb.toList] := by decide +kernel
/-- V-D3: clipped at the right edge. V-D6: the start coordinates are reduced. -/
theorem test_drw_clipped :
    (draw 0x3E 0x00 0xD015).fb.toList =
        (picture [(62, 0), (63, 0), (62, 1), (62, 2), (62, 3), (62, 4), (63, 4)]).toList ∧
      (draw 0xFF 0xFF 0xD015).fb.toList = (picture [(63, 31)]).toList := by decide +kernel
/-- V-D10: nothing is drawn or published. -/
theorem test_drw_beyond_memory :
    (after (atPc ((base.setRi 0xFFF).setFb (picture [(5, 0)])) 0xD012)).fault =
        some (.spriteReadOutOfRange 0x200 0xD012 0x1000) ∧
      (after (atPc ((base.setRi 0xFFF).setFb (picture [(5, 0)])) 0xD012)).fb.toList = (picture [(5, 0)]).toList ∧
      (after (atPc ((base.setRi 0xFFF).setFb (picture [(5, 0)])) 0xD012)).frames.length = 0 := by decide +kernel
/-- V-D7: no rows, one frame. V-D13: a lit pixel turned off leaves x[F] alone. -/
theorem test_drw_no_rows_and_no_flag :
    (after (atPc (base.setRi 0xFFF) 0xD010)).fb = Frame.allOff ∧
      (after (atPc (base.setRi 0xFFF) 0xD010)).frames.length = 1 ∧
      (after (atPc (withRegs [(15, 0x55)] ((base.setRi 0x050).setFb (picture [(0, 0)]))) 0xD011)).reg 0xF
        = 0x55 := by decide +kernel

/-! ## Timers -/

/-- V-T1. -/
theorem test_ldFromDt :
    (after (atPc (withRegs [(1, 0x09)] (base.setDt 0x2A)) 0xF107)).reg 1 = 0x2A ∧
      (after (atPc (withRegs [(1, 0x09)] (base.setDt 0x2A)) 0xF107)).dt = 0x2A := by decide +kernel
/-- V-T3. -/
theorem test_ldDt : (after (atPc (base.setDt 0x09) 0xF115)).dt = 0x00 := by decide +kernel
/-- V-T4. -/
theorem test_ldSt :
    (after (atPc (withRegs [(15, 0xFF)] (base.setDt 0x09)) 0xFF18)).st = 0xFF ∧
      (after (atPc (withRegs [(15, 0xFF)] (base.setDt 0x09)) 0xFF18)).dt = 0x09 := by decide +kernel
/-- V-T6, the third tick: dt is already 0. -/
theorem test_timer_tick :
    after { (base.setDt 0x00).setSt 0x03 with inputs := [.timerTick] } = (base.setDt 0x00).setSt 0x02 := by
  decide +kernel
/-- V-T11, the last tick: nothing after a fault. -/
theorem test_timer_tick_halted :
    after { (base.setDt 0xFE).takeFault (.illegalOpcode 0x204 0xF00A) with inputs := [.timerTick] } =
      (base.setDt 0xFE).takeFault (.illegalOpcode 0x204 0xF00A) := by decide +kernel

/-! ## Load -/

/-- V-R2. -/
theorem test_load :
    (after { base with phase := .empty, inputs := [.load [0x60, 0x2A]] }).mem = [(0x200, 0x60), (0x201, 0x2A)] ∧
      (after { base with phase := .empty, inputs := [.load [0x60, 0x2A]] }).phase = .loaded := by decide +kernel
/-- V-R5: a second load is refused. -/
theorem test_second_load_is_refused : after { base with inputs := [.load [0x60, 0x2A]] } = base := by decide +kernel
/-- V-R4. -/
theorem test_oversize_load_is_refused :
    (State.reset.hostLoad (List.replicate 3585 0xFF)) = State.reset :=
  State.hostLoad_refused fun h => by
    have hlen := h.2.2
    simp only [List.length_replicate] at hlen
    omega

/-! ## Witnesses: the hypotheses of the statements are met -/

/-- Some fault. -/
def someFault : FaultRecord := .fetchOutOfRange 0xFFF

theorem witness_EncodeOfDecodeIsTheWord : decodeWord 0xFFFF = .error (.unrecognizedOpcode 0xFFFF) ∧
    decodeWord 0xDFFF = .ok (.drw 0xF 0xF 0xF) := by decide
theorem witness_DecodeMatchesOpcodeTable :
    (∀ row ∈ opcodeTable, (0x0000 : Word) &&& row.mask ≠ row.mtch) ∧
      (∃ row ∈ opcodeTable, (0x8FFE : Word) &&& row.mask = row.mtch) := by decide
theorem witness_ResetEventAlwaysGivesResetState :
    State.inputs { base.takeFault someFault with inputs := [.reset, .cpuTick] } = .reset :: [.cpuTick] ∧
    State.inputs { State.reset with inputs := [.reset] } = .reset :: [] ∧
    State.params { State.reset with inputs := [.reset] } = Config.params := ⟨rfl, rfl, rfl⟩
theorem witness_StepRunsTheDecodedInstruction :
    (∃ (s : State) (i : Instr), s.fault = none ∧ s.pc.toNat < 0xFFF ∧ s.pc = 0xFFE ∧
      decodeWord (bytesWord (s.mem.read s.pc.toNat) (s.mem.read (s.pc.toNat + 1))) = .ok i ∧ s.inputs = []) ∧
    (∃ (s : State) (i : Instr), s.fault = none ∧ s.pc.toNat < 0xFFF ∧
      decodeWord (bytesWord (s.mem.read s.pc.toNat) (s.mem.read (s.pc.toNat + 1))) = .ok i ∧
      s.inputs = .cpuTick :: [.timerTick]) :=
  ⟨⟨atPc (base.setPc 0xFFE) 0x6007, .ldImm 0 7, by decide +kernel⟩,
    ⟨atPc { base with inputs := [.timerTick] } 0x6007, .ldImm 0 7, by decide +kernel⟩⟩
theorem witness_FetchIsBigEndian : (base.setPc 0xFFE).pc.toNat < 0xFFF ∧ (base.setPc 0x201).pc.toNat < 0xFFF := by decide
/-- Both forms of a next CpuTick, for the statements over `TickNext`. -/
theorem witness_TickNext :
    (base.setPc 0xFFF).TickNext (base.setPc 0xFFF) ∧
      State.TickNext { base.setPc 0xFFF with inputs := [.cpuTick, .timerTick] }
        { base.setPc 0xFFF with inputs := [.timerTick] } :=
  ⟨.inl ⟨rfl, rfl⟩, .inr ⟨[.timerTick], rfl, rfl⟩⟩
theorem witness_FetchBeyondMemoryFaults :
    (base.setPc 0xFFF).TickNext (base.setPc 0xFFF) ∧ (base.setPc 0xFFF).fault = none ∧
      0xFFF ≤ (base.setPc 0xFFF).pc.toNat ∧ 0xFFF ≤ (base.setPc 0x10FE).pc.toNat :=
  ⟨witness_TickNext.1, by decide⟩
theorem witness_UnrecognizedWordFaults :
    (base.setPc 0xFFE).TickNext (base.setPc 0xFFE) ∧ (base.setPc 0xFFE).fault = none ∧
      (base.setPc 0xFFE).pc.toNat < 0xFFF ∧
      (∀ row ∈ opcodeTable, (base.setPc 0xFFE).wordAtPc &&& row.mask ≠ row.mtch) :=
  ⟨.inl ⟨rfl, rfl⟩, by decide +kernel⟩
/-- The parameters of the statements about reset, launch and runs. -/
theorem witness_legal_parameters :
    otherParams.legal = true ∧ Params.legal { otherParams with stackDepth := none } = true := by decide +kernel
theorem witness_StepOutcomeIsCompletionOrPreciseFault : base.TickNext base ∧ base.fault = none := ⟨.inl ⟨rfl, rfl⟩, rfl⟩
theorem witness_OnlyThreeInstructionsFault :
    (∃ t r, base.fault = none ∧ exec .ret base = .next t ∧ t.fault = some r) ∧
    (∃ s t r, s.fault = none ∧ s.stack.length = 16 ∧ s.params.stackDepth = some 16 ∧ exec (.call 0x200) s = .next t ∧ t.fault = some r) ∧
    (∃ s t r, s.fault = none ∧ s.ri = 0xFFF ∧ exec (.drw 0 1 2) s = .next t ∧ t.fault = some r) :=
  ⟨⟨_, _, rfl, rfl, rfl⟩, ⟨{ base with stack := List.replicate 16 0x202 }, _, _, rfl, rfl, rfl, rfl, rfl⟩,
    ⟨base.setRi 0xFFF, _, _, rfl, rfl, rfl, rfl⟩⟩
theorem witness_HaltedMachineIgnoresEveryEventButReset :
    (base.takeFault someFault).fault ≠ none ∧ Event.reset ∉ [Event.cpuTick, .timerTick, .load [0x60]] := by decide
theorem witness_CompletedStepSetsPhaseRunning :
    (∃ t, base.fault = none ∧ exec .cls base = .next t ∧ t.fault = none) ∧
      (∃ t, base.fault = none ∧ exec .ret base = .next t ∧ t.fault ≠ none) :=
  ⟨⟨_, rfl, rfl, rfl⟩, ⟨_, rfl, rfl, by decide⟩⟩
theorem witness_RetPopsOrUnderflows :
    State.stack { base with stack := [0x20A, 0x300] } = [0x20A] ++ [0x300] ∧ base.stack = [] := by decide
theorem witness_CallPushesNextPcAndJumps :
    State.hasRoom { base with stack := List.replicate 15 0x202 } ∧
      State.hasRoom { base with params := { otherParams with stackDepth := none }, stack := List.replicate 16 0x202 } ∧
      base.params.stackDepth = some 16 ∧ 16 ≤ (State.stack { base with stack := List.replicate 16 0x202 }).length := by
  refine ⟨(State.hasRoom_iff _).2 (by decide), (State.hasRoom_iff _).2 (by decide), by decide, by decide⟩
theorem witness_CallThenReturnResumesAfterCall :
    ∃ s t u : State, s.stack.length = 15 ∧ s.hasRoom ∧ exec (.call 0x300) s = .next t ∧ u.stack = t.stack ∧
      u.reg 0 ≠ t.reg 0 :=
  ⟨{ base with stack := List.replicate 15 0x202 }, _,
    withRegs [(0, 1)] { base with stack := List.replicate 15 0x202 ++ [0x202] }, rfl,
    (State.hasRoom_iff _).2 (by decide), rfl, by decide, by decide⟩
/-- For the register statements with the clause `x ≠ F`: both sides of it occur. -/
theorem witness_flag_clauses : (0xE#4 ≠ 0xF#4) ∧ ¬ (0xF#4 ≠ 0xF#4) := by decide
theorem witness_RegistersChangeOnlyByDestinationOrFlag :
    (∃ t, exec (.addReg 1 2) base = .next t) ∧ (Instr.addReg 1 2).destination ≠ some 0 ∧ (0x0#4 ≠ 0xF#4) ∧
      (Instr.addReg 1 2).destination ≠ some 0xF#4 ∧ (Instr.addReg 1 2).writesFlag = true ∧
      (Instr.orReg 1 2).destination ≠ some 0xF#4 ∧ (Instr.orReg 1 2).writesFlag = false :=
  ⟨⟨_, rfl⟩, by decide⟩
theorem witness_LdILoadsIndex : ∃ t, exec (.ldI 0xFFF) base = .next t ∧ t.ri ≠ base.ri := ⟨_, rfl, by decide⟩
theorem witness_LfsrNeverReachesZeroFromLegalSeed :
    (0x04 : Byte) ≠ 0 ∧ 4 ≤ (0x04 : Byte).toNat ∧ 4 ≤ (0xFF : Byte).toNat ∧ 2 ≤ 2 ∧
      lfsrIterate 1 0x01 = 0 ∧ lfsrIterate 2 0x02 = 0 ∧ lfsrIterate 2 0x03 = 0 := by decide
theorem witness_LfsrMovesOnlyByRnd :
    (∃ s t, step s = .next t ∧ t.lfsr ≠ s.lfsr ∧ s.inputs = []) ∧
    (∃ s t, step s = .next t ∧ t.lfsr ≠ s.lfsr ∧ ∃ rest, s.inputs = .reset :: rest) :=
  ⟨⟨atPc base 0xC3FF, after (atPc base 0xC3FF), step_eq_after (by decide +kernel), by decide +kernel, rfl⟩,
    ⟨{ base with lfsr := 0, inputs := [.reset] }, _, rfl, by decide +kernel, _, rfl⟩⟩
theorem witness_DrwXorsClippedSprite :
    (base.setRi 0xFFF).spriteInMemory 0 ∧ (base.setRi 0xFF1).spriteInMemory 15 ∧ (base.setRi 0xFFF).spriteInMemory 1 ∧
      (63 < 64 ∧ 31 < 32) := by unfold State.spriteInMemory; decide
theorem witness_DrwBeyondMemoryFaultsUntouched :
    1 ≤ (0x2#4).toNat ∧ 0xFFF < (base.setRi 0xFFF).ri.toNat + (0x2#4).toNat - 1 ∧
      1 ≤ (0xF#4).toNat ∧ 0xFFF < (base.setRi 0xFF2).ri.toNat + (0xF#4).toNat - 1 := by decide
theorem witness_DrawingTwiceRestoresFramebuffer :
    ∃ t, (base.setRi 0x050).spriteInMemory 5 ∧ exec (.drw 0 1 5) (base.setRi 0x050) = .next t ∧ t.fb ≠ base.fb :=
  ⟨_, .inr (by decide), rfl, by decide +kernel⟩
theorem witness_TimerTickDecrementsEachTimer :
    State.inputs { base with inputs := [.timerTick] } = .timerTick :: [] ∧ base.fault = none ∧
      (base.takeFault someFault).fault ≠ none := by decide
theorem witness_TimersReachZeroAfterTheirValue : base.fault = none := by decide
theorem witness_TimerTickCommutesWithOtherInstructions :
    ∃ t, base.fault = none ∧ (Instr.cls).reachesTimer = false ∧ exec .cls base = .next t ∧ t.fault = none :=
  ⟨_, rfl, rfl, rfl, rfl⟩
theorem witness_OnlyLoadAndResetWriteMemory :
    (∃ t, exec (.drw 0 0 5) base = .next t) ∧
    (∃ s t : State, (∀ rest, s.inputs ≠ .reset :: rest) ∧ (∀ bytes rest, s.inputs ≠ .load bytes :: rest) ∧
      s.mem ≠ [] ∧ step s = .next t) :=
  ⟨⟨_, rfl⟩, ⟨{ base with mem := [(0x200, 0x60)], inputs := [.timerTick] }, _, by simp, by simp, by simp, rfl⟩⟩
theorem witness_CanonicalMemoriesAreDetermined :
    Memory.wf [(0x200, 0x60), (0xFFF, 0x2A)] ∧ ¬ Memory.wf [(0x200, 0x00)] ∧ ¬ Memory.wf [(0x201, 1), (0x200, 1)] ∧
      ¬ Memory.wf [(0x1000, 1)] := by decide
theorem witness_LoadCopiesProgramOrIsRefused :
    State.inputs { base with inputs := [.load [0x60]] } = .load [0x60] :: [] ∧ base.mem.wf ∧
      (State.phase { base with phase := .empty } = .empty ∧ base.fault = none ∧
        (List.replicate 3584 (0 : Byte)).length ≤ 3584) ∧
      ¬ (base.phase = .empty ∧ base.fault = none ∧ ([0x60] : List Byte).length ≤ 3584) ∧
      ¬ (List.replicate 3585 (0 : Byte)).length ≤ 3584 := by
  refine ⟨rfl, by decide, ⟨rfl, rfl, ?_⟩, by decide, ?_⟩ <;> simp only [List.length_replicate] <;> omega
theorem witness_LaunchStateMeetsPremises :
    otherParams.legal = true ∧
    (List.replicate 3584 (0x12 : Byte)).length ≤ 3584 ∧ ([] : List Byte).length ≤ 3584 := by
  refine ⟨witness_legal_parameters.1, ?_, by decide⟩
  simp only [List.length_replicate]; decide
theorem witness_WithFetchWordRunsThatInstruction :
    State.reset.mem.wf ∧ (base.setPc 0xFFF).mem.wf ∧ decodeWord 0x2200 = .ok (.call 0x200) := by decide
theorem witness_SpecialRegistersMoveOnlyByTheirInstructions :
    (∃ t, exec (.ldI 1) base = .next t ∧ t.ri ≠ base.ri) ∧
    (∃ t, exec (.ldDt 0) (base.setDt 1) = .next t ∧ t.dt ≠ (base.setDt 1).dt) ∧
    (∃ t, exec (.ldSt 0) (base.setSt 1) = .next t ∧ t.st ≠ (base.setSt 1).st) ∧
    (∃ t, exec (.call 1) base = .next t ∧ t.stack ≠ base.stack) ∧
    (∃ t, exec (.rnd 0 0) base = .next t ∧ t.lfsr ≠ base.lfsr) ∧
    (∃ t, exec .cls (base.setFb (picture [(0, 0)])) = .next t ∧
      t.fb ≠ (base.setFb (picture [(0, 0)])).fb ∧ t.frames ≠ base.frames) :=
  ⟨⟨_, rfl, by decide⟩, ⟨_, rfl, by decide⟩, ⟨_, rfl, by decide⟩, ⟨_, rfl, by decide⟩, ⟨_, rfl, by decide⟩,
    ⟨_, rfl, by decide +kernel, by decide +kernel⟩⟩
/-- A state that meets the invariant, at its bounds: pc and the stack entry as high as a run can leave them. -/
theorem witness_EveryStepKeepsInvariant :
    State.Inv { base with pc := 0x10FE, ri := 0x0FFF, stack := List.replicate 16 0x1000, phase := .running } where
  ri_le := by show (0x0FFF : Nat) ≤ _; decide
  pc_le := by show (0x10FE : Nat) ≤ _; decide
  legal := by decide +kernel
  sp_le := fun _ h => Option.some.inj h ▸ Nat.le_refl 16
  entries_le := fun v hv => by rw [(List.mem_replicate.1 hv).2]; decide
  mem_wf := Memory.wf_nil
  low_mem := fun _ _ => rfl
  lfsr_ge := by show 4 ≤ (0xAC#8).toNat; decide
  latch := rfl
  fault_pc := fun _ h => nomatch h
  unloaded := fun h => nomatch h
theorem witness_IdlePointStaysIdle :
    ∃ s : State, s.idlePoint ∧ s.phase = .running ∧ s.inputs = [] ∧
      State.inputs { s with inputs := [.cpuTick] } = .cpuTick :: [] ∧
      State.inputs { s with inputs := [.timerTick] } = .timerTick :: [] :=
  ⟨{ atPc base 0x1200 with phase := .running },
    ⟨rfl, by unfold State.canFetch; decide +kernel, 0x200, by decide +kernel, by decide +kernel⟩, rfl, rfl, rfl, rfl⟩

end Sys2Proof.Tests
end

section
/-! PROOFS. The family of memory (20_memory.md): what leaves memory as it is (R66). -/

namespace Sys2Proof.Machine

/-- An execute phase leaves memory as it is, whether it completes or faults (R66). -/
theorem exec_mem {i : Instr} {s t : State} (h : exec i s = .next t) : t.mem = s.mem := by
  rcases exec_cases i s with ⟨u, hu, heff⟩ | ⟨r, hr, -⟩
  · cases hu.symm.trans h
    exact heff.mem
  · cases hr.symm.trans h
    exact s.takeFault_mem r

/-- A CpuTick leaves memory as it is: the halted machine stands still, an instruction completes, or a fault is taken. -/
theorem State.cpuTick_mem {s t : State} (h : s.cpuTick = .next t) : t.mem = s.mem := by
  rcases s.cpuTick_cases with ⟨-, hc⟩ | ⟨-, -, _, _, -, -, heff, hc⟩ | ⟨-, r, -, hc⟩ <;> cases hc.symm.trans h
  · rfl
  · exact heff.mem
  · exact s.takeFault_mem r

/-- A TimerTick moves the two timers at most. -/
@[simp] theorem State.timerTick_mem (s : State) : s.timerTick.mem = s.mem := by
  by_cases hf : s.fault = none
  · rw [State.timerTick_running hf]
  · rw [State.timerTick_halted hf]

/-- Settles O49: the four events of R250, of which the hypotheses leave the CpuTick, listed or implied, and the
TimerTick. -/
theorem onlyLoadAndResetWriteMemory : Obligations.OnlyLoadAndResetWriteMemory := by
  refine ⟨fun _ _ _ => exec_mem, fun s t hreset hload h => ?_⟩
  cases hi : s.inputs with
  | nil => exact State.cpuTick_mem ((step_of_inputs_nil hi).symm.trans h)
  | cons e rest =>
    rw [step_of_inputs_cons hi] at h
    cases e with
    | reset => exact absurd hi (hreset rest)
    | load bytes => exact absurd hi (hload bytes rest)
    | cpuTick =>
      exact State.cpuTick_mem (s := { s with inputs := rest }) h
    | timerTick =>
      cases h
      exact State.timerTick_mem { s with inputs := rest }

end Sys2Proof.Machine
end

section
/-! PROOFS. The family of control transfer (41_flow.md): the jumps 1NNN and BNNN and the four conditional skips (R141, R143
to R147). -/

namespace Sys2Proof

/-! ## The words (30_encoding.md R95) -/

@[simp] theorem decodeWord_jp (nnn : Addr12) : decodeWord (0x1#4 ++ nnn) = .ok (.jp nnn) := by
  simp only [decodeWord, opField_nnn, nnnField_nnn]

@[simp] theorem decodeWord_jpV0 (nnn : Addr12) : decodeWord (0xB#4 ++ nnn) = .ok (.jpV0 nnn) := by
  simp only [decodeWord, opField_nnn, nnnField_nnn]

@[simp] theorem decodeWord_seImm (x : Nibble) (nn : Byte) : decodeWord (0x3#4 ++ x ++ nn) = .ok (.seImm x nn) := by
  simp only [decodeWord, opField_xnn, xField_xnn, nnField_xnn]

@[simp] theorem decodeWord_sneImm (x : Nibble) (nn : Byte) : decodeWord (0x4#4 ++ x ++ nn) = .ok (.sneImm x nn) := by
  simp only [decodeWord, opField_xnn, xField_xnn, nnField_xnn]

@[simp] theorem decodeWord_seReg (x y : Nibble) : decodeWord (0x5#4 ++ x ++ y ++ 0x0#4) = .ok (.seReg x y) := by
  simp only [decodeWord, opField_xyn, decodeFamily5, xField_xyn, yField_xyn, nField_xyn, if_true]

@[simp] theorem decodeWord_sneReg (x y : Nibble) : decodeWord (0x9#4 ++ x ++ y ++ 0x0#4) = .ok (.sneReg x y) := by
  simp only [decodeWord, opField_xyn, decodeFamily9, xField_xyn, yField_xyn, nField_xyn, if_true]

end Sys2Proof

namespace Sys2Proof.Machine

/-! ## The target of a transfer -/

/-- The target of 1NNN is NNN with four zero bits above it (R141). -/
theorem absoluteTarget_eq_setWidth (nnn : Addr12) : absoluteTarget nnn = nnn.setWidth 16 := rfl

/-- A byte keeps its number when extended to a word (R92). -/
@[simp] theorem byte_toNat_toWord (b : Byte) : b.toWord.toNat = b.toNat :=
  BitVec.toNat_setWidth_of_le (by decide)

/-- An address keeps its number when extended to a word (R92). -/
@[simp] theorem addr12_toNat_toWord (a : Addr12) : a.toWord.toNat = a.toNat :=
  BitVec.toNat_setWidth_of_le (by decide)

/-- The sum of BNNN is at most 0x10FE, so it fits in 16 bits and is the sum of the two numbers (R143). -/
theorem State.indexedTarget_toNat (s : State) (nnn : Addr12) :
    (s.indexedTarget nnn).toNat = (s.reg 0).toNat + nnn.toNat := by
  have hfits : (s.reg 0).toNat + nnn.toNat < 2 ^ 16 := by omega
  rw [State.indexedTarget, BitVec.toNat_add, byte_toNat_toWord, addr12_toNat_toWord, Nat.mod_eq_of_lt hfits]

/-- A skip on a condition: 4 bytes on if it holds, else 2 (R144, R146). -/
theorem State.skipTarget_decide (s : State) (p : Prop) [Decidable p] :
    s.skipTarget (decide p) = if p then s.pc + 4 else s.pc + 2 := by
  have htwice : s.pc + 2 + 2 = s.pc + 4 := BitVec.add_assoc s.pc 2 2
  simp only [State.skipTarget, State.nextPc, decide_eq_true_eq, htwice]

/-- A skip on the negation of a condition: 2 bytes on if the condition holds, else 4 (R145, R147). -/
theorem State.skipTarget_decide_not (s : State) (p : Prop) [Decidable p] :
    s.skipTarget (decide ¬p) = if p then s.pc + 2 else s.pc + 4 := by
  rw [State.skipTarget_decide, ite_not]

/-! ## The frame of a transfer -/

/-- A transfer of control moves `pc` and the phase at most. -/
theorem State.keepsAllBut_advance_setPc (s : State) (target : Word) :
    KeepsAllBut [.pc, .phase] s (s.advance.setPc target) := by
  intro p hp
  cases p with
  | pc => simp at hp
  | phase => simp at hp
  | _ => simp [StatePart.same]

/-! ## The obligations -/

/-- Settles O19: 1NNN transfers control to NNN. -/
theorem jpLoadsPc : Obligations.JpLoadsPc :=
  fun nnn s => ⟨decodeWord_jp nnn, _, rfl, absoluteTarget_eq_setWidth nnn, s.keepsAllBut_advance_setPc _⟩

/-- Settles O21: BNNN transfers control to the indexed target, whose number is the sum. -/
theorem jpV0AddsRegisterZero : Obligations.JpV0AddsRegisterZero :=
  fun nnn s => ⟨decodeWord_jpV0 nnn, _, rfl, s.indexedTarget_toNat nnn, s.keepsAllBut_advance_setPc _⟩

/-- Settles O22: 3XNN skips on the condition x[X] = NN, 4XNN on its negation. -/
theorem immediateSkipsCompareWithNN : Obligations.ImmediateSkipsCompareWithNN :=
  fun x nn s => ⟨decodeWord_seImm x nn, decodeWord_sneImm x nn,
    ⟨_, rfl, s.skipTarget_decide (s.reg x = nn), s.keepsAllBut_advance_setPc _⟩,
    ⟨_, rfl, s.skipTarget_decide_not (s.reg x = nn), s.keepsAllBut_advance_setPc _⟩⟩

/-- Settles O23: 5XY0 skips on the condition x[X] = x[Y], 9XY0 on its negation. -/
theorem registerSkipsCompareRegisters : Obligations.RegisterSkipsCompareRegisters :=
  fun x y s => ⟨decodeWord_seReg x y, decodeWord_sneReg x y,
    ⟨_, rfl, s.skipTarget_decide (s.reg x = s.reg y), s.keepsAllBut_advance_setPc _⟩,
    ⟨_, rfl, s.skipTarget_decide_not (s.reg x = s.reg y), s.keepsAllBut_advance_setPc _⟩⟩

end Sys2Proof.Machine
end

section
/-! PROOFS. The family of register arithmetic (42_alu.md): the load, the add without flag, the copy and the three logic
instructions, each of which advances and writes one register (R160 to R165). -/

namespace Sys2Proof

/-! ## The words (30_encoding.md R95) -/

@[simp] theorem decodeWord_ldImm (x : Nibble) (nn : Byte) : decodeWord (0x6#4 ++ x ++ nn) = .ok (.ldImm x nn) := by
  simp only [decodeWord, opField_xnn, xField_xnn, nnField_xnn]

@[simp] theorem decodeWord_addImm (x : Nibble) (nn : Byte) : decodeWord (0x7#4 ++ x ++ nn) = .ok (.addImm x nn) := by
  simp only [decodeWord, opField_xnn, xField_xnn, nnField_xnn]

/-- A word of family 8 is decoded by its bottom nibble (R96). -/
theorem decodeWord_family8 (x y n : Nibble) :
    decodeWord (0x8#4 ++ x ++ y ++ n) = decodeFamily8 (0x8#4 ++ x ++ y ++ n) := by
  simp only [decodeWord, opField_xyn]

@[simp] theorem decodeWord_ldReg (x y : Nibble) : decodeWord (0x8#4 ++ x ++ y ++ 0x0#4) = .ok (.ldReg x y) := by
  simp only [decodeWord_family8, decodeFamily8, xField_xyn, yField_xyn, nField_xyn]

@[simp] theorem decodeWord_orReg (x y : Nibble) : decodeWord (0x8#4 ++ x ++ y ++ 0x1#4) = .ok (.orReg x y) := by
  simp only [decodeWord_family8, decodeFamily8, xField_xyn, yField_xyn, nField_xyn]

@[simp] theorem decodeWord_andReg (x y : Nibble) : decodeWord (0x8#4 ++ x ++ y ++ 0x2#4) = .ok (.andReg x y) := by
  simp only [decodeWord_family8, decodeFamily8, xField_xyn, yField_xyn, nField_xyn]

@[simp] theorem decodeWord_xorReg (x y : Nibble) : decodeWord (0x8#4 ++ x ++ y ++ 0x3#4) = .ok (.xorReg x y) := by
  simp only [decodeWord_family8, decodeFamily8, xField_xyn, yField_xyn, nField_xyn]

end Sys2Proof

namespace Sys2Proof.Machine

/-! ## The frame of a register write -/

/-- Advancing and writing one register leaves every other register. -/
theorem State.keepsRegsBut_advance_setReg (s : State) (x : Nibble) (v : Byte) :
    KeepsRegsBut [x] s (s.advance.setReg x v) := by
  intro r hr
  rw [State.reg_setReg_other _ v (List.ne_of_not_mem_cons hr), State.advance_reg]

/-- Advancing and writing a register moves the registers, `pc` and the phase at most. -/
theorem State.keepsAllBut_advance_setReg (s : State) (x : Nibble) (v : Byte) :
    KeepsAllBut [.regs, .pc, .phase] s (s.advance.setReg x v) := by
  intro p hp
  cases p with
  | regs => simp at hp
  | pc => simp at hp
  | phase => simp at hp
  | _ => simp [StatePart.same]

/-- What every instruction of this family leaves: the other registers, `pc` 2 bytes on, and everything else but the
phase. -/
theorem State.advance_setReg_frame (s : State) (x : Nibble) (v : Byte) :
    KeepsRegsBut [x] s (s.advance.setReg x v) ∧ (s.advance.setReg x v).pc = s.pc + 2 ∧
      KeepsAllBut [.regs, .pc, .phase] s (s.advance.setReg x v) :=
  ⟨s.keepsRegsBut_advance_setReg x v, s.advance_pc, s.keepsAllBut_advance_setReg x v⟩

/-! ## The obligations -/

/-- Settles O25: 6XNN advances and writes NN. -/
theorem ldImmLoadsRegister : Obligations.LdImmLoadsRegister :=
  fun x nn s => ⟨decodeWord_ldImm x nn, _, rfl, s.advance.reg_setReg_same x nn, s.advance_setReg_frame x nn⟩

/-- Settles O26: 7XNN advances and writes the sum of bytes, whose number is the sum of the two numbers modulo 256. -/
theorem addImmWrapsWithoutFlag : Obligations.AddImmWrapsWithoutFlag := by
  refine fun x nn s => ⟨decodeWord_addImm x nn, _, rfl, ?_, s.advance_setReg_frame x (s.reg x + nn)⟩
  rw [State.reg_setReg_same, BitVec.toNat_add]

/-- Settles O27: 8XY0 advances and writes the old x[Y]. -/
theorem ldRegCopies : Obligations.LdRegCopies :=
  fun x y s => ⟨decodeWord_ldReg x y, _, rfl, s.advance.reg_setReg_same x (s.reg y), s.advance_setReg_frame x (s.reg y)⟩

/-- Settles O28: each of the three advances and writes a bitwise operation of the old x[X] and x[Y], of which
`BitVec.getLsbD_or`, `getLsbD_and` and `getLsbD_xor` say what each bit is. -/
theorem logicIsBitwiseWithoutFlag : Obligations.LogicIsBitwiseWithoutFlag := by
  refine fun x y s => ⟨decodeWord_orReg x y, decodeWord_andReg x y, decodeWord_xorReg x y,
    ⟨_, rfl, fun k => ?_, s.advance_setReg_frame x (s.reg x ||| s.reg y)⟩,
    ⟨_, rfl, fun k => ?_, s.advance_setReg_frame x (s.reg x &&& s.reg y)⟩,
    ⟨_, rfl, fun k => ?_, s.advance_setReg_frame x (s.reg x ^^^ s.reg y)⟩⟩
  · rw [State.reg_setReg_same, BitVec.getLsbD_or]
  · rw [State.reg_setReg_same, BitVec.getLsbD_and]
  · rw [State.reg_setReg_same, BitVec.getLsbD_xor]

end Sys2Proof.Machine
end

section
/-! PROOFS. The family of index load and random (43_index_random.md): ANNN, and that no other instruction moves `ri`
(R190). -/

namespace Sys2Proof

/-! ## The word (30_encoding.md R95) -/

@[simp] theorem decodeWord_ldI (nnn : Addr12) : decodeWord (0xA#4 ++ nnn) = .ok (.ldI nnn) := by
  simp only [decodeWord, opField_nnn, nnnField_nnn]

end Sys2Proof

namespace Sys2Proof.Machine

/-! ## The index register -/

/-- Advancing and writing the index register moves `ri`, `pc` and the phase at most. -/
theorem State.keepsAllBut_advance_setRi (s : State) (v : Word) :
    KeepsAllBut [.ri, .pc, .phase] s (s.advance.setRi v) := by
  intro p hp
  cases p with
  | ri => simp at hp
  | pc => simp at hp
  | phase => simp at hp
  | _ => simp [StatePart.same]

/-- An execute phase that moves `ri` is one of ANNN: the three instructions that can fault leave `ri` on both of their
branches, the other twenty-two on their only one. -/
theorem eq_ldI_of_exec_ri_ne {i : Instr} {s t : State} (h : exec i s = .next t) (hri : t.ri ≠ s.ri) :
    ∃ nnn, i = .ldI nnn := by
  cases i with
  | ldI nnn => exact ⟨nnn, rfl⟩
  | ret =>
    simp only [exec, execRet] at h
    split at h <;> cases h <;> exact absurd rfl hri
  | call nnn =>
    simp only [exec, execCall] at h
    split at h <;> cases h <;> exact absurd rfl hri
  | drw x y n =>
    simp only [exec, execDrw] at h
    split at h <;> cases h <;> exact absurd rfl hri
  | _ => cases h; exact absurd rfl hri

/-! ## The obligation -/

/-- Settles O34: ANNN advances and writes NNN to `ri`, with no check; an instruction that moves `ri` is an ANNN. -/
theorem ldILoadsIndex : Obligations.LdILoadsIndex :=
  ⟨fun nnn s => ⟨decodeWord_ldI nnn, _, rfl, absoluteTarget_eq_setWidth nnn, s.advance_pc,
    s.keepsAllBut_advance_setRi _⟩, fun _ _ _ => eq_ldI_of_exec_ri_ne⟩

end Sys2Proof.Machine
end

section
/-! PROOFS. The family of timer access (45_timer_access.md): the read of the delay timer and the two timer writes (R220
to R222). -/

namespace Sys2Proof

/-! ## The words (30_encoding.md R95) -/

/-- A word of family F is decoded by its bottom byte (R96). -/
theorem decodeWord_familyF (x : Nibble) (nn : Byte) :
    decodeWord (0xF#4 ++ x ++ nn) = decodeFamilyF (0xF#4 ++ x ++ nn) := by
  simp only [decodeWord, opField_xnn]

@[simp] theorem decodeWord_ldFromDt (x : Nibble) : decodeWord (0xF#4 ++ x ++ 0x07#8) = .ok (.ldFromDt x) := by
  simp only [decodeWord_familyF, decodeFamilyF, xField_xnn, nnField_xnn]

@[simp] theorem decodeWord_ldDt (x : Nibble) : decodeWord (0xF#4 ++ x ++ 0x15#8) = .ok (.ldDt x) := by
  simp only [decodeWord_familyF, decodeFamilyF, xField_xnn, nnField_xnn]

@[simp] theorem decodeWord_ldSt (x : Nibble) : decodeWord (0xF#4 ++ x ++ 0x18#8) = .ok (.ldSt x) := by
  simp only [decodeWord_familyF, decodeFamilyF, xField_xnn, nnField_xnn]

end Sys2Proof

namespace Sys2Proof.Machine

/-! ## The frames of the timer writes -/

/-- Advancing and writing the delay timer moves `dt`, `pc` and the phase at most. -/
theorem State.keepsAllBut_advance_setDt (s : State) (v : Byte) :
    KeepsAllBut [.dt, .pc, .phase] s (s.advance.setDt v) := by
  intro p hp
  cases p with
  | dt => simp at hp
  | pc => simp at hp
  | phase => simp at hp
  | _ => simp [StatePart.same]

/-- Advancing and writing the sound timer moves `st`, `pc` and the phase at most. -/
theorem State.keepsAllBut_advance_setSt (s : State) (v : Byte) :
    KeepsAllBut [.st, .pc, .phase] s (s.advance.setSt v) := by
  intro p hp
  cases p with
  | st => simp at hp
  | pc => simp at hp
  | phase => simp at hp
  | _ => simp [StatePart.same]

/-! ## The obligations -/

/-- Settles O43: FX07 advances and writes `dt` to x[X], with the frame of a register write. -/
theorem readDelayTimer : Obligations.ReadDelayTimer :=
  fun x s => ⟨decodeWord_ldFromDt x, _, rfl, s.advance.reg_setReg_same x s.dt, s.advance_setReg_frame x s.dt⟩

/-- Settles O44: FX15 advances and writes x[X] to `dt`. -/
theorem writeDelayTimer : Obligations.WriteDelayTimer :=
  fun x s => ⟨decodeWord_ldDt x, _, rfl, s.advance.setDt_dt (s.reg x), s.advance_pc, s.keepsAllBut_advance_setDt _⟩

/-- Settles O45: FX18 advances and writes x[X] to `st`. -/
theorem writeSoundTimer : Obligations.WriteSoundTimer :=
  fun x s => ⟨decodeWord_ldSt x, _, rfl, s.advance.setSt_st (s.reg x), s.advance_pc, s.keepsAllBut_advance_setSt _⟩

end Sys2Proof.Machine
end

section
/-! PROOFS. The family of the LFSR (60_exceptions.md): what one step puts into each bit (R247). -/

namespace Sys2Proof.Machine

/-! ## The bits of one step -/

/-- The byte 0x80 has bit 7 and no other. -/
theorem getLsbD_0x80 (k : Nat) : (0x80#8).getLsbD k = decide (k = 7) :=
  calc (0x80#8).getLsbD k
    _ = (BitVec.twoPow 8 7).getLsbD k := rfl
    _ = decide (k = 7) := by simp [BitVec.getLsbD_twoPow, eq_comm]

/-- Every bit of one step: the new bit enters at position 7, and each position takes the old bit above it (none above
bit 7). -/
theorem getLsbD_lfsrStep (s : Byte) (k : Nat) :
    (lfsrStep s).getLsbD k = (lfsrNewBit s && decide (k = 7) || s.getLsbD (k + 1)) := by
  rw [lfsrStep, BitVec.getLsbD_or, BitVec.getLsbD_ushiftRight, Nat.add_comm 1 k]
  cases lfsrNewBit s with
  | true => simp [getLsbD_0x80]
  | false => simp

/-- Bit 7 of one step is the parity of the taps, for no old bit stands above bit 7. -/
theorem getLsbD_lfsrStep_seven (s : Byte) : (lfsrStep s).getLsbD 7 = lfsrNewBit s := by
  rw [getLsbD_lfsrStep, BitVec.getLsbD_of_ge s 8 (by decide)]
  simp

/-- Below bit 7 one step is the shift alone. -/
theorem getLsbD_lfsrStep_of_lt (s : Byte) {k : Nat} (hk : k < 7) :
    (lfsrStep s).getLsbD k = s.getLsbD (k + 1) := by
  simp [getLsbD_lfsrStep, hk.ne]

/-! ## The obligation -/

/-- Settles O36: the two bit equations of a step, and the six sample bytes evaluated. -/
theorem lfsrStepShiftsInTheTapParity : Obligations.LfsrStepShiftsInTheTapParity :=
  ⟨fun s => ⟨getLsbD_lfsrStep_seven s, fun _ hk => getLsbD_lfsrStep_of_lt s hk⟩, by decide⟩

end Sys2Proof.Machine
end

section
/-! PROOFS. The family of encodings (30_encoding.md sections 1 to 3): the words of the instructions no earlier part
decodes, decoding and encoding as inverses of each other, and the opcode table (R94 to R96, R99). -/

namespace Sys2Proof

/-! ## The words (30_encoding.md R95) -/

@[simp] theorem decodeWord_call (nnn : Addr12) : decodeWord (0x2#4 ++ nnn) = .ok (.call nnn) := by
  simp only [decodeWord, opField_nnn, nnnField_nnn]

@[simp] theorem decodeWord_rnd (x : Nibble) (nn : Byte) : decodeWord (0xC#4 ++ x ++ nn) = .ok (.rnd x nn) := by
  simp only [decodeWord, opField_xnn, xField_xnn, nnField_xnn]

@[simp] theorem decodeWord_drw (x y n : Nibble) : decodeWord (0xD#4 ++ x ++ y ++ n) = .ok (.drw x y n) := by
  simp only [decodeWord, opField_xyn, xField_xyn, yField_xyn, nField_xyn]

@[simp] theorem decodeWord_addReg (x y : Nibble) : decodeWord (0x8#4 ++ x ++ y ++ 0x4#4) = .ok (.addReg x y) := by
  simp only [decodeWord_family8, decodeFamily8, xField_xyn, yField_xyn, nField_xyn]

@[simp] theorem decodeWord_subReg (x y : Nibble) : decodeWord (0x8#4 ++ x ++ y ++ 0x5#4) = .ok (.subReg x y) := by
  simp only [decodeWord_family8, decodeFamily8, xField_xyn, yField_xyn, nField_xyn]

@[simp] theorem decodeWord_shr (x y : Nibble) : decodeWord (0x8#4 ++ x ++ y ++ 0x6#4) = .ok (.shr x y) := by
  simp only [decodeWord_family8, decodeFamily8, xField_xyn, yField_xyn, nField_xyn]

@[simp] theorem decodeWord_subnReg (x y : Nibble) : decodeWord (0x8#4 ++ x ++ y ++ 0x7#4) = .ok (.subnReg x y) := by
  simp only [decodeWord_family8, decodeFamily8, xField_xyn, yField_xyn, nField_xyn]

@[simp] theorem decodeWord_shl (x y : Nibble) : decodeWord (0x8#4 ++ x ++ y ++ 0xE#4) = .ok (.shl x y) := by
  simp only [decodeWord_family8, decodeFamily8, xField_xyn, yField_xyn, nField_xyn]

/-- Decoding undoes encoding: 00E0 and 00EE are two fixed words, every other word is one of a lemma above. -/
theorem decodeWord_encode (i : Instr) : decodeWord (encode i) = .ok i := by
  cases i with
  | cls => rfl
  | ret => rfl
  | _ => simp only [encode, decodeWord_jp, decodeWord_call, decodeWord_seImm, decodeWord_sneImm, decodeWord_seReg,
      decodeWord_ldImm, decodeWord_addImm, decodeWord_ldReg, decodeWord_orReg, decodeWord_andReg, decodeWord_xorReg,
      decodeWord_addReg, decodeWord_subReg, decodeWord_shr, decodeWord_subnReg, decodeWord_shl, decodeWord_sneReg,
      decodeWord_ldI, decodeWord_jpV0, decodeWord_rnd, decodeWord_drw, decodeWord_ldFromDt, decodeWord_ldDt,
      decodeWord_ldSt]

/-! ## Words with given fixed fields (R91) -/

/-- Format NNN: a word with its own address put after a family is itself exactly if that is its family. -/
theorem nnn_eq_word_iff (w : Word) (op : Nibble) : op ++ nnnField w = w ↔ opField w = op := by
  constructor
  · intro h
    rw [← h, opField_nnn]
  · rintro rfl
    exact word_eq_nnn w

/-- Format XNN: likewise. -/
theorem xnn_eq_word_iff (w : Word) (op : Nibble) : op ++ xField w ++ nnField w = w ↔ opField w = op := by
  constructor
  · intro h
    rw [← h, opField_xnn]
  · rintro rfl
    exact word_eq_xnn w

/-- Format XSUB: likewise, the bottom byte fixed too. -/
theorem xsub_eq_word_iff (w : Word) (op : Nibble) (nn : Byte) :
    op ++ xField w ++ nn = w ↔ opField w = op ∧ nnField w = nn := by
  constructor
  · intro h
    rw [← h, opField_xnn, nnField_xnn]
    exact ⟨rfl, rfl⟩
  · rintro ⟨rfl, rfl⟩
    exact word_eq_xnn w

/-- Formats XY and XYN: likewise, the bottom nibble fixed too. -/
theorem xyn_eq_word_iff (w : Word) (op n : Nibble) :
    op ++ xField w ++ yField w ++ n = w ↔ opField w = op ∧ nField w = n := by
  constructor
  · intro h
    rw [← h, opField_xyn, nField_xyn]
    exact ⟨rfl, rfl⟩
  · rintro ⟨rfl, rfl⟩
    exact word_eq_xyn w

/-! ## Encoding undoes decoding -/

theorem encode_of_decodeFamily0 {w : Word} {i : Instr} (h : decodeFamily0 w = .ok i) : encode i = w := by
  unfold decodeFamily0 at h
  split at h
  · cases h; exact (‹w = 0x00E0#16›).symm
  · split at h
    · cases h; exact (‹w = 0x00EE#16›).symm
    · cases h

theorem encode_of_decodeFamily5 {w : Word} {i : Instr} (hop : opField w = 0x5#4) (h : decodeFamily5 w = .ok i) :
    encode i = w := by
  unfold decodeFamily5 at h
  split at h <;> cases h
  exact (xyn_eq_word_iff w _ _).2 ⟨hop, ‹_›⟩

theorem encode_of_decodeFamily8 {w : Word} {i : Instr} (hop : opField w = 0x8#4) (h : decodeFamily8 w = .ok i) :
    encode i = w := by
  unfold decodeFamily8 at h
  split at h <;> cases h
  all_goals exact (xyn_eq_word_iff w _ _).2 ⟨hop, ‹_›⟩

theorem encode_of_decodeFamily9 {w : Word} {i : Instr} (hop : opField w = 0x9#4) (h : decodeFamily9 w = .ok i) :
    encode i = w := by
  unfold decodeFamily9 at h
  split at h <;> cases h
  exact (xyn_eq_word_iff w _ _).2 ⟨hop, ‹_›⟩

theorem encode_of_decodeFamilyF {w : Word} {i : Instr} (hop : opField w = 0xF#4) (h : decodeFamilyF w = .ok i) :
    encode i = w := by
  unfold decodeFamilyF at h
  split at h <;> cases h
  all_goals exact (xsub_eq_word_iff w _ _).2 ⟨hop, ‹_›⟩

/-- The families in the order of R96: six of them are decoded further, the others fix nothing but the family. -/
theorem encode_of_decodeWord {w : Word} {i : Instr} (h : decodeWord w = .ok i) : encode i = w := by
  unfold decodeWord at h
  split at h
  case h_1 => exact encode_of_decodeFamily0 h
  case h_2 hop => cases h; exact (nnn_eq_word_iff w _).2 hop
  case h_3 hop => cases h; exact (nnn_eq_word_iff w _).2 hop
  case h_4 hop => cases h; exact (xnn_eq_word_iff w _).2 hop
  case h_5 hop => cases h; exact (xnn_eq_word_iff w _).2 hop
  case h_6 hop => exact encode_of_decodeFamily5 hop h
  case h_7 hop => cases h; exact (xnn_eq_word_iff w _).2 hop
  case h_8 hop => cases h; exact (xnn_eq_word_iff w _).2 hop
  case h_9 hop => exact encode_of_decodeFamily8 hop h
  case h_10 hop => exact encode_of_decodeFamily9 hop h
  case h_11 hop => cases h; exact (nnn_eq_word_iff w _).2 hop
  case h_12 hop => cases h; exact (nnn_eq_word_iff w _).2 hop
  case h_13 hop => cases h; exact (xnn_eq_word_iff w _).2 hop
  case h_14 hop => cases h; exact (xyn_eq_word_iff w _ _).2 ⟨hop, rfl⟩
  case h_15 hop => exact encode_of_decodeFamilyF hop h
  case h_16 => cases h

/-- The two directions together: a word decodes to the one instruction it is the word of. -/
theorem decodeWord_eq_ok_iff (w : Word) (i : Instr) : decodeWord w = .ok i ↔ encode i = w := by
  constructor
  · exact encode_of_decodeWord
  · rintro rfl
    exact decodeWord_encode i

/-! ## The opcode table (R94, R95) -/

/-- A row whose fixed bits are the family. -/
theorem and_maskF000_eq_iff (w : Word) (op : Nibble) : w &&& 0xF000#16 = op ++ 0#12 ↔ opField w = op := by
  rw [and_maskF000]
  constructor
  · intro h
    simpa only [opField_nnn] using congrArg opField h
  · rintro rfl
    rfl

/-- A row whose fixed bits are the family and the bottom nibble. -/
theorem and_maskF00F_eq_iff (w : Word) (op n : Nibble) :
    w &&& 0xF00F#16 = op ++ 0#4 ++ 0#4 ++ n ↔ opField w = op ∧ nField w = n := by
  have hmask : w &&& 0xF00F#16 = opField w ++ 0#4 ++ 0#4 ++ nField w := by
    rw [and_maskF00F]
    exact congrArg (· ++ nField w) (BitVec.append_assoc (x₁ := opField w) (x₂ := 0#4) (x₃ := 0#4)).symm
  rw [hmask]
  constructor
  · intro h
    exact ⟨by simpa only [opField_xyn] using congrArg opField h, by simpa only [nField_xyn] using congrArg nField h⟩
  · rintro ⟨rfl, rfl⟩
    rfl

/-- A row whose fixed bits are the family and the bottom byte. -/
theorem and_maskF0FF_eq_iff (w : Word) (op : Nibble) (nn : Byte) :
    w &&& 0xF0FF#16 = op ++ 0#4 ++ nn ↔ opField w = op ∧ nnField w = nn := by
  rw [and_maskF0FF]
  constructor
  · intro h
    exact ⟨by simpa only [opField_xnn] using congrArg opField h, by simpa only [nnField_xnn] using congrArg nnField h⟩
  · rintro ⟨rfl, rfl⟩
    rfl

/-- A row without fields. -/
theorem word_row_iff (v w : Word) : v = w ↔ w &&& 0xFFFF#16 = v := by
  have hmask : w &&& 0xFFFF#16 = w := BitVec.and_allOnes
  rw [hmask, eq_comm]

theorem nnn_row_iff (w : Word) (op : Nibble) : op ++ nnnField w = w ↔ w &&& 0xF000#16 = op ++ 0#12 :=
  (nnn_eq_word_iff w op).trans (and_maskF000_eq_iff w op).symm

theorem xnn_row_iff (w : Word) (op : Nibble) : op ++ xField w ++ nnField w = w ↔ w &&& 0xF000#16 = op ++ 0#12 :=
  (xnn_eq_word_iff w op).trans (and_maskF000_eq_iff w op).symm

theorem xsub_row_iff (w : Word) (op : Nibble) (nn : Byte) :
    op ++ xField w ++ nn = w ↔ w &&& 0xF0FF#16 = op ++ 0#4 ++ nn :=
  (xsub_eq_word_iff w op nn).trans (and_maskF0FF_eq_iff w op nn).symm

theorem xy_row_iff (w : Word) (op n : Nibble) :
    op ++ xField w ++ yField w ++ n = w ↔ w &&& 0xF00F#16 = op ++ 0#4 ++ 0#4 ++ n :=
  (xyn_eq_word_iff w op n).trans (and_maskF00F_eq_iff w op n).symm

theorem xyn_row_iff (w : Word) (op : Nibble) :
    op ++ xField w ++ yField w ++ nField w = w ↔ w &&& 0xF000#16 = op ++ 0#12 := by
  rw [xyn_eq_word_iff, and_maskF000_eq_iff]
  exact and_iff_left rfl

/-- A word has the fixed bits of a row exactly if it is the word of the instruction that row reads from it: by the
format of each row. -/
theorem encode_read_iff (w : Word) :
    ∀ row ∈ opcodeTable, encode (row.read w) = w ↔ w &&& row.mask = row.mtch := by
  simp only [opcodeTable, opcodeRowsFlow, opcodeRowsAlu, opcodeRowsRest, List.cons_append, List.nil_append,
    List.forall_mem_cons, List.not_mem_nil, false_imp_iff, implies_true, and_true]
  exact ⟨word_row_iff 0x00E0#16 w, word_row_iff 0x00EE#16 w, nnn_row_iff w 0x1#4, nnn_row_iff w 0x2#4,
    xnn_row_iff w 0x3#4, xnn_row_iff w 0x4#4, xy_row_iff w 0x5#4 0x0#4, xnn_row_iff w 0x6#4, xnn_row_iff w 0x7#4,
    xy_row_iff w 0x8#4 0x0#4, xy_row_iff w 0x8#4 0x1#4, xy_row_iff w 0x8#4 0x2#4, xy_row_iff w 0x8#4 0x3#4,
    xy_row_iff w 0x8#4 0x4#4, xy_row_iff w 0x8#4 0x5#4, xy_row_iff w 0x8#4 0x6#4, xy_row_iff w 0x8#4 0x7#4,
    xy_row_iff w 0x8#4 0xE#4, xy_row_iff w 0x9#4 0x0#4, nnn_row_iff w 0xA#4, nnn_row_iff w 0xB#4,
    xnn_row_iff w 0xC#4, xyn_row_iff w 0xD#4, xsub_row_iff w 0xF#4 0x07#8, xsub_row_iff w 0xF#4 0x15#8,
    xsub_row_iff w 0xF#4 0x18#8⟩

/-- A word decodes by a row exactly if it has the row's fixed bits. -/
theorem decodeWord_eq_read_iff (w : Word) {row : OpcodeRow} (h : row ∈ opcodeTable) :
    decodeWord w = .ok (row.read w) ↔ w &&& row.mask = row.mtch :=
  (decodeWord_eq_ok_iff w _).trans (encode_read_iff w row h)

/-- Every instruction is what some row reads from its word. -/
theorem exists_row_read_encode (i : Instr) : ∃ row ∈ opcodeTable, row.read (encode i) = i := by
  simp only [opcodeTable, opcodeRowsFlow, opcodeRowsAlu, opcodeRowsRest, List.cons_append, List.nil_append,
    List.exists_mem_cons_iff]
  cases i <;> simp [encode]

/-- A rejection names the word it rejects (R99). -/
theorem decodeWord_error {w : Word} {e : DecodeError} (h : decodeWord w = .error e) :
    e = .unrecognizedOpcode w := by
  unfold decodeWord at h
  split at h
  case h_1 =>
    unfold decodeFamily0 at h
    split at h
    · cases h
    · split at h <;> cases h; rfl
  case h_6 => unfold decodeFamily5 at h; split at h <;> cases h; rfl
  case h_9 => unfold decodeFamily8 at h; split at h <;> cases h; rfl
  case h_10 => unfold decodeFamily9 at h; split at h <;> cases h; rfl
  case h_15 => unfold decodeFamilyF at h; split at h <;> cases h; rfl
  all_goals cases h
  rfl

/-- A word no row matches is rejected, and the rejection names it: an instruction it decoded to would be read
by a row. -/
theorem decodeWord_of_no_row {w : Word} (h : ∀ row ∈ opcodeTable, w &&& row.mask ≠ row.mtch) :
    decodeWord w = .error (.unrecognizedOpcode w) := by
  cases hd : decodeWord w with
  | error e => rw [decodeWord_error hd]
  | ok i =>
    obtain ⟨row, hrow, hread⟩ := exists_row_read_encode i
    rw [encode_of_decodeWord hd] at hread
    exact absurd ((decodeWord_eq_read_iff w hrow).1 (hread ▸ hd)) (h row hrow)

/-- Two rows that disagree on a bit both of them fix select no word in common. -/
theorem not_selects_both {row other : OpcodeRow} (h : row.mtch &&& other.mask ≠ other.mtch &&& row.mask) (w : Word) :
    ¬ (row.selects w = true ∧ other.selects w = true) := by
  simp only [OpcodeRow.selects, beq_iff_eq]
  rintro ⟨hrow, hother⟩
  refine h ?_
  rw [← hrow, ← hother, BitVec.and_assoc, BitVec.and_assoc, BitVec.and_comm row.mask]

/-! ## The obligations -/

/-- Settles O2: by the word of each instruction. -/
theorem decodeOfEncodeIsTheInstruction : Obligations.DecodeOfEncodeIsTheInstruction := decodeWord_encode

/-- Settles O3: by the family of the word. -/
theorem encodeOfDecodeIsTheWord : Obligations.EncodeOfDecodeIsTheWord := fun _ _ => encode_of_decodeWord

/-- Settles O4: a row's instruction has the word w exactly if w has the row's fixed bits, and decoding
inverts encoding. -/
theorem decodeMatchesOpcodeTable : Obligations.DecodeMatchesOpcodeTable :=
  ⟨rfl, fun w => ⟨fun _ => decodeWord_eq_read_iff w, decodeWord_of_no_row⟩⟩

/-- Settles O5: any two rows of the table disagree on a bit both of them fix. -/
theorem opcodeRowsAreDisjoint : Obligations.OpcodeRowsAreDisjoint := by
  have hbits : opcodeTable.Pairwise (fun row other => row.mtch &&& other.mask ≠ other.mtch &&& row.mask) := by
    decide +kernel
  exact hbits.imp not_selects_both

/-- Settles O1: the twelve words, decoded. -/
theorem sampleWordsDecode : Obligations.SampleWordsDecode := by
  unfold Obligations.SampleWordsDecode
  decide

end Sys2Proof
end

section
/-! PROOFS. The family of steps (40_fetch_decode_execute.md, 60_exceptions.md sections 1 and 5): what a step does whose next
event is a CpuTick, what a completing instruction leaves in each part of the state, and the halted machine. -/

namespace Sys2Proof.Machine

/-! ## What a completing instruction leaves -/

/-- The state an instruction leaves when it completes. The three instructions that can fault are given by their
completing branch (00EE on an empty stack, which never completes, is given the target 0); every other one by `exec`,
which `exec_eq_next_completed` confirms. -/
def completed (i : Instr) (s : State) : State :=
  match i with
  | .ret => s.advance.dropTop.setPc (s.top?.getD 0)
  | .call nnn => (s.advance.push s.nextPc).setPc (absoluteTarget nnn)
  | .drw x y n => (s.advance.setFb (s.fb.xorSprite (s.startColumn x) (s.startRow y) (s.spriteRows n))).publish
  | _ =>
    match exec i s with
    | .next t => t
    | _ => s

/-- The fault an instruction raises, if it raises one (60_exceptions.md R238). -/
def raised (i : Instr) (s : State) : Option FaultRecord :=
  match i with
  | .ret => if s.top? = none then some (.stackUnderflow s.pc (encode .ret)) else none
  | .call nnn => if s.stackFull then some (.stackOverflow s.pc (encode (.call nnn))) else none
  | .drw x y n =>
    if s.spriteBeyondMemory n then some (.spriteReadOutOfRange s.pc (encode (.drw x y n)) 0x1000#16) else none
  | _ => none

/-- An instruction that raises nothing completes. -/
theorem exec_eq_next_completed {i : Instr} {s : State} (h : raised i s = none) : exec i s = .next (completed i s) := by
  cases i with
  | ret =>
    cases htop : s.top? with
    | none => simp [raised, htop] at h
    | some v => simp [exec, execRet, completed, htop]
  | call nnn =>
    have hroom : ¬ s.stackFull = true := fun hfull => by simp [raised, hfull] at h
    simp only [exec, execCall, completed, if_neg hroom]
  | drw x y n =>
    have hin : ¬ s.spriteBeyondMemory n = true := fun hout => by simp [raised, hout] at h
    simp only [exec, execDrw, completed, if_neg hin]
  | _ => rfl

/-- An instruction that raises a fault latches it and changes nothing else (R236). -/
theorem exec_eq_next_takeFault {i : Instr} {s : State} {r : FaultRecord} (h : raised i s = some r) :
    exec i s = .next (s.takeFault r) := by
  cases i with
  | ret =>
    simp only [raised, Option.ite_none_right_eq_some, Option.some.injEq] at h
    obtain ⟨htop, rfl⟩ := h
    simp only [exec, execRet, htop, State.raise]
  | call nnn =>
    simp only [raised, Option.ite_none_right_eq_some, Option.some.injEq] at h
    obtain ⟨hfull, rfl⟩ := h
    simp only [exec, execCall, if_pos hfull, State.raise]
  | drw x y n =>
    simp only [raised, Option.ite_none_right_eq_some, Option.some.injEq] at h
    obtain ⟨hout, rfl⟩ := h
    simp only [exec, execDrw, if_pos hout, State.raise]
  | _ => cases h

/-- The state an instruction answers: the completed one, or the old one with the raised fault latched. -/
theorem eq_completed_or_takeFault {i : Instr} {s t : State} (h : exec i s = .next t) :
    (raised i s = none ∧ t = completed i s) ∨ ∃ r, raised i s = some r ∧ t = s.takeFault r := by
  cases hr : raised i s with
  | none =>
    cases (exec_eq_next_completed hr).symm.trans h
    exact .inl ⟨rfl, rfl⟩
  | some r =>
    cases (exec_eq_next_takeFault hr).symm.trans h
    exact .inr ⟨r, rfl, rfl⟩

/-- An instruction that answers a state without fault completed. -/
theorem eq_completed_of_fault_eq_none {i : Instr} {s t : State} (h : exec i s = .next t) (hf : t.fault = none) :
    raised i s = none ∧ t = completed i s := by
  rcases eq_completed_or_takeFault h with hc | ⟨r, -, rfl⟩
  · exact hc
  · cases hf

/-- A completing instruction publishes its framebuffer once if it is 00E0 or DXYN and leaves the frames alone otherwise
(44_display.md R208). -/
theorem completed_frames (i : Instr) (s : State) :
    (completed i s).frames = if i.publishes then s.frames ++ [(completed i s).fb] else s.frames := by
  cases i <;> rfl

/-- Only 00E0 and DXYN move the framebuffer. -/
theorem completed_fb {i : Instr} (h : i.publishes = false) (s : State) : (completed i s).fb = s.fb := by
  cases i with
  | cls => cases h
  | drw x y n => cases h
  | _ => rfl

/-- Only FX15 moves the delay timer. -/
theorem completed_dt (i : Instr) (s : State) : (completed i s).dt = s.dt ∨ ∃ x, i = .ldDt x := by
  cases i with
  | ldDt x => exact .inr ⟨x, rfl⟩
  | _ => exact .inl rfl

/-- Only FX18 moves the sound timer. -/
theorem completed_st (i : Instr) (s : State) : (completed i s).st = s.st ∨ ∃ x, i = .ldSt x := by
  cases i with
  | ldSt x => exact .inr ⟨x, rfl⟩
  | _ => exact .inl rfl

/-- Only 00EE and 2NNN move the stack. -/
theorem completed_stack (i : Instr) (s : State) :
    (completed i s).stack = s.stack ∨ i = .ret ∨ ∃ nnn, i = .call nnn := by
  cases i with
  | ret => exact .inr (.inl rfl)
  | call nnn => exact .inr (.inr ⟨nnn, rfl⟩)
  | _ => exact .inl rfl

/-- Only CXNN moves the LFSR, by one step. -/
theorem completed_lfsr (i : Instr) (s : State) :
    (completed i s).lfsr = s.lfsr ∨ (∃ x nn, i = .rnd x nn) ∧ (completed i s).lfsr = lfsrStep s.lfsr := by
  cases i with
  | rnd x nn => exact .inr ⟨⟨x, nn, rfl⟩, rfl⟩
  | _ => exact .inl rfl

/-! ## The CpuTick, case by case -/

/-- From a `pc` in memory fetch gives the word there (R121). -/
theorem State.fetch_of_canFetch {s : State} (hc : s.canFetch) : s.fetch = some s.wordAtPc :=
  s.fetch_eq.trans (if_pos hc)

/-- With no fault and an instruction at `pc`, a CpuTick runs it (R124). -/
theorem State.cpuTick_of_decode {s : State} {i : Instr} (hf : s.fault = none) (hc : s.canFetch)
    (hd : decodeWord s.wordAtPc = .ok i) : s.cpuTick = exec i s := by
  simp only [State.cpuTick_running hf, State.cpuStep, State.fetch_of_canFetch hc, hd]

/-- With no fault and an unrecognized word at `pc`, a CpuTick latches IllegalOpcode (R99, R232). -/
theorem State.cpuTick_of_decode_error {s : State} {e : DecodeError} (hf : s.fault = none) (hc : s.canFetch)
    (hd : decodeWord s.wordAtPc = .error e) : s.cpuTick = .next (s.takeFault (.illegalOpcode s.pc s.wordAtPc)) := by
  simp only [State.cpuTick_running hf, State.cpuStep, State.fetch_of_canFetch hc, hd, State.raise]

/-- With no fault and `pc` beyond memory, a CpuTick latches FetchOutOfRange (R233). -/
theorem State.cpuTick_of_not_canFetch {s : State} (hf : s.fault = none) (hc : ¬ s.canFetch) :
    s.cpuTick = .next (s.takeFault (.fetchOutOfRange s.pc)) := by
  have hfetch : s.fetch = none := s.fetch_eq.trans (if_neg hc)
  simp only [State.cpuTick_running hf, State.cpuStep, hfetch, State.raise]

/-! ## Taking events off the list -/

/-- The state with the tick taken off has the parts other than the listed events as before. -/
theorem State.TickNext.fault_eq {s u : State} (h : s.TickNext u) : u.fault = s.fault := by rw [h.eq]

theorem State.TickNext.pc_eq {s u : State} (h : s.TickNext u) : u.pc = s.pc := by rw [h.eq]

theorem State.TickNext.frames_eq {s u : State} (h : s.TickNext u) : u.frames = s.frames := by rw [h.eq]

theorem State.TickNext.wordAtPc_eq {s u : State} (h : s.TickNext u) : u.wordAtPc = s.wordAtPc := by rw [h.eq]; rfl

/-- A TickNext state can be fetched from exactly if the state before can. -/
theorem State.TickNext.canFetch_iff {s u : State} (h : s.TickNext u) : u.canFetch ↔ s.canFetch := by
  unfold State.canFetch
  rw [h.pc_eq]

/-- The high byte of a word made of two bytes (R62). -/
@[simp] theorem extractLsb'_high_bytesWord (hi lo : Byte) : (bytesWord hi lo).extractLsb' 8 8 = hi :=
  BitVec.extractLsb'_append_eq_left

/-- The low byte of a word made of two bytes (R62). -/
@[simp] theorem extractLsb'_low_bytesWord (hi lo : Byte) : (bytesWord hi lo).extractLsb' 0 8 = lo :=
  BitVec.extractLsb'_append_eq_right

/-! ## The parameters -/

/-- A timer tick keeps the parameters. -/
theorem State.timerTick_params (s : State) : s.timerTick.params = s.params := by
  by_cases hf : s.fault = none
  · rw [State.timerTick_running hf]
  · rw [State.timerTick_halted hf]

/-- A load keeps the parameters. -/
theorem State.hostLoad_params (s : State) (bytes : List Byte) : (s.hostLoad bytes).params = s.params := by
  by_cases hacc : s.phase = .empty ∧ s.fault = none ∧ bytes.length ≤ 3584
  · rw [State.hostLoad_accepted hacc]
  · rw [State.hostLoad_refused hacc]

/-- Every instruction answers a next state, with the same parameters. -/
theorem exists_exec_eq_next (i : Instr) (s : State) : ∃ t, exec i s = .next t ∧ t.params = s.params := by
  rcases exec_cases i s with ⟨t, ht, heff⟩ | ⟨r, hr, -⟩
  · exact ⟨t, ht, heff.params⟩
  · exact ⟨_, hr, rfl⟩

/-- Every CpuTick answers a next state, with the same parameters. -/
theorem State.exists_cpuTick_eq_next (s : State) : ∃ t, s.cpuTick = .next t ∧ t.params = s.params := by
  rcases s.cpuTick_cases with ⟨-, hc⟩ | ⟨-, -, _, t, -, -, heff, hc⟩ | ⟨-, r, -, hc⟩
  · exact ⟨s, hc, rfl⟩
  · exact ⟨t, hc, heff.params⟩
  · exact ⟨_, hc, rfl⟩

/-- Every event is answered by a next state, with the same parameters. -/
theorem exists_deliver_eq_next (e : Event) (s : State) : ∃ t, deliver e s = .next t ∧ t.params = s.params := by
  cases e with
  | reset => exact ⟨_, rfl, rfl⟩
  | load bytes => exact ⟨_, rfl, s.hostLoad_params bytes⟩
  | cpuTick => exact s.exists_cpuTick_eq_next
  | timerTick => exact ⟨_, rfl, s.timerTick_params⟩

/-- Every step answers a next state, with the same parameters. -/
theorem exists_step_eq_next (s : State) : ∃ t, step s = .next t ∧ t.params = s.params := by
  cases hi : s.inputs with
  | nil => exact step_of_inputs_nil hi ▸ s.exists_cpuTick_eq_next
  | cons e rest => exact step_of_inputs_cons hi ▸ exists_deliver_eq_next e { s with inputs := rest }

/-! ## The obligations -/

/-- Settles O8: listed or implied, the tick is a CpuTick that finds the instruction. -/
theorem stepRunsTheDecodedInstruction : Obligations.StepRunsTheDecodedInstruction :=
  fun s _ hf hc hd =>
    ⟨fun hi => (step_of_inputs_nil hi).trans (s.cpuTick_of_decode hf hc hd),
      fun rest hi => (step_of_inputs_cons hi).trans
        (State.cpuTick_of_decode (s := { s with inputs := rest }) hf hc hd)⟩

/-- Settles O9: fetch gives the word at `pc`, whose two halves are the two bytes. -/
theorem fetchIsBigEndian : Obligations.FetchIsBigEndian :=
  fun s hc => ⟨s.wordAtPc, State.fetch_of_canFetch hc, extractLsb'_high_bytesWord _ _,
    extractLsb'_low_bytesWord _ _⟩

/-- Settles O10: nothing can be fetched from `pc`. -/
theorem fetchBeyondMemoryFaults : Obligations.FetchBeyondMemoryFaults := by
  intro s u hu hf hpc
  have hc : ¬ u.canFetch := fun hc => absurd (hu.canFetch_iff.1 hc) (Nat.not_lt.2 hpc)
  rw [hu.step_eq, ← hu.pc_eq]
  exact State.cpuTick_of_not_canFetch (hu.fault_eq.trans hf) hc

/-- Settles O11: a word no row matches is rejected by the decoder, so the CpuTick latches IllegalOpcode. -/
theorem unrecognizedWordFaults : Obligations.UnrecognizedWordFaults := by
  refine ⟨fun s u hu hf hpc hrows => ?_, by decide⟩
  rw [← hu.wordAtPc_eq] at hrows ⊢
  rw [hu.step_eq, ← hu.pc_eq]
  exact State.cpuTick_of_decode_error (hu.fault_eq.trans hf) (hu.canFetch_iff.2 hpc) (decodeWord_of_no_row hrows)

/-- Settles O13: by what a CpuTick can do; how often it published is `completed_frames`. -/
theorem stepOutcomeIsCompletionOrPreciseFault : Obligations.StepOutcomeIsCompletionOrPreciseFault := by
  intro s u hu hf
  rw [hu.step_eq]
  rcases u.cpuTick_cases with ⟨hne, -⟩ | ⟨huf, -, i, t, hd, ht, heff, hc⟩ | ⟨-, r, -, hc⟩
  · exact absurd (hu.fault_eq.trans hf) hne
  · have htf : t.fault = none := heff.fault.trans huf
    obtain ⟨-, rfl⟩ := eq_completed_of_fault_eq_none ht htf
    exact ⟨_, hc, .inl ⟨htf, i, hu.wordAtPc_eq ▸ hd, ht, hu.frames_eq ▸ completed_frames i u⟩⟩
  · exact ⟨_, hc, .inr ⟨r, rfl⟩⟩

/-- Settles O14: event by event and instruction by instruction. -/
theorem everyStepAnswersANextState : Obligations.EveryStepAnswersANextState :=
  ⟨exists_step_eq_next, exists_exec_eq_next⟩

/-- Settles O15: a completing instruction keeps the empty latch, and `ExecRaises` lists the ways to fault. -/
theorem onlyThreeInstructionsFault : Obligations.OnlyThreeInstructionsFault := by
  intro i s t r hf ht htf
  rcases exec_cases i s with ⟨u, hu, heff⟩ | ⟨r', hr, hraise⟩
  · cases hu.symm.trans ht
    rw [heff.fault, hf] at htf
    cases htf
  · cases hr.symm.trans ht
    cases htf
    cases hraise with
    | underflow hempty => exact .inl ⟨rfl, hempty, rfl⟩
    | overflow nnn hfull =>
      obtain ⟨depth, hdepth, hle⟩ := s.stackFull_iff.1 hfull
      exact .inr (.inl ⟨nnn, depth, rfl, hdepth, hle, rfl⟩)
    | sprite x y n hout =>
      obtain ⟨hn, hri⟩ := (s.spriteBeyondMemory_iff n).1 hout
      exact .inr (.inr ⟨x, y, n, rfl, hn, hri, rfl⟩)

/-- A halted machine answers every event but Reset with the state it is in (R237). -/
theorem deliver_halted {s : State} {e : Event} (hf : s.fault ≠ none) (he : e ≠ .reset) : deliver e s = .next s := by
  cases e with
  | reset => exact absurd rfl he
  | load bytes => exact congrArg _ (State.hostLoad_refused fun ⟨_, hnone, _⟩ => hf hnone)
  | cpuTick => exact State.cpuTick_halted hf
  | timerTick => exact congrArg _ (State.timerTick_halted hf)

/-- Settles O16: by induction on the list of events. -/
theorem haltedMachineIgnoresEveryEventButReset : Obligations.HaltedMachineIgnoresEveryEventButReset := by
  intro s events hf hreset
  induction events with
  | nil => rfl
  | cons e rest ih =>
    obtain ⟨he, hrest⟩ := List.ne_and_not_mem_of_not_mem_cons hreset
    have hstep : step { s with inputs := e :: rest } = .next { s with inputs := rest } :=
      (step_of_inputs_cons rfl).trans (deliver_halted (s := { s with inputs := rest }) hf he.symm)
    rw [List.length_cons, run_succ_of_next hstep]
    exact ih hrest

/-- Settles O17: an instruction completes with phase Running, or takes a fault, which leaves the phase. -/
theorem completedStepSetsPhaseRunning : Obligations.CompletedStepSetsPhaseRunning := by
  intro i s t hf ht
  rcases exec_cases i s with ⟨u, hu, heff⟩ | ⟨r, hr, -⟩
  · cases hu.symm.trans ht
    exact ⟨fun _ => heff.phase, fun hne => absurd (heff.fault.trans hf) hne⟩
  · cases hr.symm.trans ht
    exact ⟨(fun hnone => by cases hnone), fun _ => rfl⟩

/-- Settles O54: what a completing instruction moves part by part; a fault moves none of these parts. -/
theorem specialRegistersMoveOnlyByTheirInstructions : Obligations.SpecialRegistersMoveOnlyByTheirInstructions := by
  intro i s t ht
  have hmem : ∀ a, t.mem.read a = s.mem.read a := fun a => by rw [exec_mem ht]
  refine ⟨eq_ldI_of_exec_ri_ne ht, ?_⟩
  rcases eq_completed_or_takeFault ht with ⟨hr, rfl⟩ | ⟨r, -, rfl⟩
  · refine ⟨(completed_dt i s).resolve_left, (completed_st i s).resolve_left, (completed_stack i s).resolve_left,
      fun hne => ((completed_lfsr i s).resolve_left hne).1, fun hne => ?_, fun hne => ?_, hmem, ?_, ?_⟩
    · exact Bool.of_not_eq_false fun hp => hne (completed_fb hp s)
    · exact Bool.of_not_eq_false fun hp => hne (by simp [completed_frames, hp])
    all_goals cases i <;> rfl
  · simp

end Sys2Proof.Machine
end

section
/-! PROOFS. The family of the call stack (41_flow.md): 2NNN and 00EE, and the round trip of a call and its return (R140,
R142, R149). -/

namespace Sys2Proof.Machine

/-! ## The two instructions on the stack -/

/-- 00EE on a non-empty stack pops the newest entry into `pc` (R140). -/
theorem exec_ret_of_concat {s : State} {older : List Word} {v : Word} (h : s.stack = older ++ [v]) :
    exec .ret s = .next (s.advance.dropTop.setPc v) := by
  simp [exec, execRet, State.top?, h]

/-- The stack 00EE leaves is the older entries. -/
theorem State.stack_dropTop_of_concat {s : State} {older : List Word} {v : Word} (h : s.stack = older ++ [v]) :
    s.dropTop.stack = older := by
  rw [State.dropTop_stack, h, List.dropLast_concat]

/-- 00EE on an empty stack raises StackUnderflow (R231). -/
theorem exec_ret_of_nil {s : State} (h : s.stack = []) :
    exec .ret s = .next (s.takeFault (.stackUnderflow s.pc 0x00EE#16)) :=
  exec_eq_next_takeFault (by simp [raised, State.top?, h, encode])

/-- 2NNN with room for a push pushes the address after itself and jumps (R142). -/
theorem exec_call_of_hasRoom {s : State} (nnn : Addr12) (h : s.hasRoom) :
    exec (.call nnn) s = .next ((s.advance.push (s.pc + 2)).setPc nnn.toWord) :=
  exec_eq_next_completed (by simp [raised, s.hasRoom_iff.1 h])

/-- 2NNN on a full stack raises StackOverflow (R235). -/
theorem exec_call_of_stackFull {s : State} (nnn : Addr12) (h : s.stackFull = true) :
    exec (.call nnn) s = .next (s.takeFault (.stackOverflow s.pc (0x2#4 ++ nnn))) :=
  exec_eq_next_takeFault (if_pos h)

/-- Popping and jumping moves `pc`, the stack and the phase at most. -/
theorem State.keepsAllBut_advance_dropTop_setPc (s : State) (v : Word) :
    KeepsAllBut [.pc, .stack, .phase] s (s.advance.dropTop.setPc v) := by
  intro p hp
  cases p with
  | pc => simp at hp
  | stack => simp at hp
  | phase => simp at hp
  | _ => simp [StatePart.same]

/-- Pushing and jumping moves `pc`, the stack and the phase at most. -/
theorem State.keepsAllBut_advance_push_setPc (s : State) (v target : Word) :
    KeepsAllBut [.pc, .stack, .phase] s ((s.advance.push v).setPc target) := by
  intro p hp
  cases p with
  | pc => simp at hp
  | stack => simp at hp
  | phase => simp at hp
  | _ => simp [StatePart.same]

/-! ## The obligations -/

/-- Settles O18: the stack is empty or has a newest entry. -/
theorem retPopsOrUnderflows : Obligations.RetPopsOrUnderflows :=
  ⟨rfl, fun s _ v h => ⟨_, exec_ret_of_concat h, rfl, s.advance.stack_dropTop_of_concat h,
    s.keepsAllBut_advance_dropTop_setPc v⟩, fun _ => exec_ret_of_nil⟩

/-- Settles O20: a push fits, or the stack holds STACK_DEPTH entries or more. -/
theorem callPushesNextPcAndJumps : Obligations.CallPushesNextPcAndJumps :=
  fun nnn s => ⟨decodeWord_call nnn,
    fun hroom => ⟨_, exec_call_of_hasRoom nnn hroom, rfl, rfl, s.keepsAllBut_advance_push_setPc _ _⟩,
    fun depth hdepth hle => exec_call_of_stackFull nnn (s.stackFull_iff.2 ⟨depth, hdepth, hle⟩)⟩

/-- Settles O24: the newest entry of the stack the call left is the address after the call. -/
theorem callThenReturnResumesAfterCall : Obligations.CallThenReturnResumesAfterCall := by
  intro nnn s t u hroom ht hu
  cases (exec_call_of_hasRoom nnn hroom).symm.trans ht
  have hstack : u.stack = s.stack ++ [s.pc + 2] := hu
  have hpopped := u.advance.stack_dropTop_of_concat hstack
  exact ⟨_, exec_ret_of_concat hstack, rfl, hpopped, congrArg List.length hpopped⟩

end Sys2Proof.Machine
end

section
/-! PROOFS. The family of flags (42_alu.md sections 3 and 4, 43_index_random.md): the five instructions that write x[F]
beside their destination, CXNN, and which registers any instruction moves (R22, R166 to R172, R191). -/

namespace Sys2Proof.Machine

/-! ## The numbers behind the flags -/

theorem toNat_flagByte (b : Bool) : (flagByte b).toNat = if b then 1 else 0 := by
  cases b <;> rfl

/-- A flag byte is 0 or 1 (R22). -/
theorem flagByte_eq_zero_or_one (b : Bool) : flagByte b = 0#8 ∨ flagByte b = 1#8 := by
  cases b
  · exact .inl rfl
  · exact .inr rfl

theorem flagByte_decide (p : Prop) [Decidable p] : flagByte (decide p) = if p then 1#8 else 0#8 := by
  simp only [flagByte, decide_eq_true_eq]
  rfl

theorem toNat_flagByte_decide (p : Prop) [Decidable p] : (flagByte (decide p)).toNat = if p then 1 else 0 := by
  rw [toNat_flagByte]
  simp only [decide_eq_true_eq]

/-- The bit a right shift loses is the remainder by 2 (R168). -/
theorem toNat_lowBitFlag (a : Byte) : (lowBitFlag a).toNat = a.toNat % 2 := by
  rw [lowBitFlag, toNat_flagByte, BitVec.getLsbD, Nat.testBit_zero]
  rcases Nat.mod_two_eq_zero_or_one a.toNat with h | h <;> simp [h]

/-- The bit a left shift loses is the quotient by 128 (R170). -/
theorem toNat_highBitFlag (a : Byte) : (highBitFlag a).toNat = a.toNat / 128 := by
  have hlt : a.toNat < 256 := a.isLt
  rw [highBitFlag, toNat_flagByte, BitVec.getLsbD, Nat.testBit_eq_decide_div_mod_eq]
  simp only [decide_eq_true_eq]
  split <;> omega

/-- The difference of two bytes is the difference of their numbers modulo 256 (R171). -/
theorem toNat_byte_sub (a b : Byte) : (a - b).toNat = (a.toNat + 256 - b.toNat) % 256 := by
  have hlt : b.toNat < 256 := b.isLt
  rw [BitVec.toNat_sub]
  omega

/-- A right shift by one halves (R168). -/
theorem toNat_byte_shr_one (a : Byte) : (a >>> 1).toNat = a.toNat / 2 := by
  rw [BitVec.toNat_ushiftRight, Nat.shiftRight_one]

/-- A left shift by one doubles modulo 256 (R170). -/
theorem toNat_byte_shl_one (a : Byte) : (a <<< 1).toNat = 2 * a.toNat % 256 := by
  rw [BitVec.toNat_shiftLeft, Nat.shiftLeft_eq, Nat.mul_comm]

/-! ## The two orders of writing (R125) -/

/-- The flag stays, whatever X is. -/
theorem State.reg_flag_writeResultThenFlag (s : State) (x : Nibble) (result flag : Byte) :
    (s.writeResultThenFlag x result flag).reg 0xF#4 = flag := by
  simp [State.reg_writeResultThenFlag]

/-- The result stays when X is not F. -/
theorem State.reg_result_writeResultThenFlag (s : State) {x : Nibble} (hx : x ≠ 0xF#4) (result flag : Byte) :
    (s.writeResultThenFlag x result flag).reg x = result := by
  simp [State.reg_writeResultThenFlag, hx]

/-- The result stays, whatever X is. -/
theorem State.reg_result_writeFlagThenResult (s : State) (x : Nibble) (flag result : Byte) :
    (s.writeFlagThenResult x flag result).reg x = result := by
  simp [State.reg_writeFlagThenResult]

/-- The flag stays when X is not F. -/
theorem State.reg_flag_writeFlagThenResult (s : State) {x : Nibble} (hx : x ≠ 0xF#4) (flag result : Byte) :
    (s.writeFlagThenResult x flag result).reg 0xF#4 = flag := by
  simp [State.reg_writeFlagThenResult, hx.symm]

/-- What 8XY4 leaves: the registers but x[X] and x[F], `pc` 2 bytes on, and everything else but the phase. -/
theorem State.advance_writeResultThenFlag_frame (s : State) (x : Nibble) (result flag : Byte) :
    KeepsRegsBut [x, 0xF#4] s (s.advance.writeResultThenFlag x result flag) ∧
      (s.advance.writeResultThenFlag x result flag).pc = s.pc + 2 ∧
      KeepsAllBut [.regs, .pc, .phase] s (s.advance.writeResultThenFlag x result flag) := by
  refine ⟨fun r hr => ?_, rfl, fun p hp => ?_⟩
  · simp only [List.mem_cons, List.not_mem_nil, or_false, not_or] at hr
    simp [State.reg_writeResultThenFlag, hr.1, hr.2]
  · cases p with
    | regs => simp at hp
    | pc => simp at hp
    | phase => simp at hp
    | _ => simp [StatePart.same]

/-- What 8XY5, 8XY6, 8XY7 and 8XYE leave: the same parts. -/
theorem State.advance_writeFlagThenResult_frame (s : State) (x : Nibble) (flag result : Byte) :
    KeepsRegsBut [x, 0xF#4] s (s.advance.writeFlagThenResult x flag result) ∧
      (s.advance.writeFlagThenResult x flag result).pc = s.pc + 2 ∧
      KeepsAllBut [.regs, .pc, .phase] s (s.advance.writeFlagThenResult x flag result) := by
  refine ⟨fun r hr => ?_, rfl, fun p hp => ?_⟩
  · simp only [List.mem_cons, List.not_mem_nil, or_false, not_or] at hr
    simp [State.reg_writeFlagThenResult, hr.1, hr.2]
  · cases p with
    | regs => simp at hp
    | pc => simp at hp
    | phase => simp at hp
    | _ => simp [StatePart.same]

/-- Stepping the LFSR and writing a register moves the registers, `lfsr`, `pc` and the phase at most. -/
theorem State.keepsAllBut_advance_setLfsr_setReg (s : State) (x : Nibble) (v w : Byte) :
    KeepsAllBut [.regs, .lfsr, .pc, .phase] s ((s.advance.setLfsr v).setReg x w) := by
  intro p hp
  cases p with
  | regs => simp at hp
  | lfsr => simp at hp
  | pc => simp at hp
  | phase => simp at hp
  | _ => simp [StatePart.same]

/-! ## The registers after any instruction -/

/-- From `s` to `t` the register `destination` is free to change, x[F] takes a flag if `flag` holds, and every other
register keeps its value. -/
def RegsMoved (destination : Option Nibble) (flag : Bool) (s t : State) : Prop :=
  ∃ b, ∀ r, destination ≠ some r → t.reg r = if r = flagIndex ∧ flag = true then flagByte b else s.reg r

/-- A state with the same registers. -/
theorem RegsMoved.none {s t : State} (h : t.regs = s.regs) : RegsMoved .none false s t :=
  ⟨false, fun r _ => by simp [State.reg, h]⟩

/-- A write to the destination. -/
theorem RegsMoved.setReg {s u : State} (h : u.regs = s.regs) (x : Nibble) (v : Byte) :
    RegsMoved (some x) false s (u.setReg x v) := by
  refine ⟨false, fun r hr => ?_⟩
  have hrx : r ≠ x := fun he => hr (congrArg some he.symm)
  rw [State.reg_setReg_other u v hrx]
  simp [State.reg, h]

/-- The result and then the flag. -/
theorem RegsMoved.writeResultThenFlag (s : State) (x : Nibble) (result : Byte) (b : Bool) :
    RegsMoved (some x) true s (s.advance.writeResultThenFlag x result (flagByte b)) := by
  refine ⟨b, fun r hr => ?_⟩
  have hrx : r ≠ x := fun he => hr (congrArg some he.symm)
  simp [State.reg_writeResultThenFlag, hrx]

/-- The flag and then the result. -/
theorem RegsMoved.writeFlagThenResult (s : State) (x : Nibble) (b : Bool) (result : Byte) :
    RegsMoved (some x) true s (s.advance.writeFlagThenResult x (flagByte b) result) := by
  refine ⟨b, fun r hr => ?_⟩
  have hrx : r ≠ x := fun he => hr (congrArg some he.symm)
  simp [State.reg_writeFlagThenResult, hrx]

/-- A completing instruction moves its destination, and x[F] if it is a flag writer. -/
theorem regsMoved_completed (i : Instr) (s : State) : RegsMoved i.destination i.writesFlag s (completed i s) := by
  cases i with
  | ldImm | addImm | ldReg | orReg | andReg | xorReg | rnd | ldFromDt => exact .setReg rfl _ _
  | addReg => exact .writeResultThenFlag s _ _ _
  | subReg | shr | subnReg | shl => exact .writeFlagThenResult s _ _ _
  | _ => exact .none rfl

/-- The five flag writers raise no fault. -/
theorem raised_of_writesFlag {i : Instr} (h : i.writesFlag = true) (s : State) : raised i s = none := by
  cases i with
  | addReg | subReg | shr | subnReg | shl => rfl
  | _ => cases h

/-! ## The obligations -/

/-- Settles O29: the sum and then the carry. -/
theorem addRegSetsCarry : Obligations.AddRegSetsCarry := by
  refine fun x y s => ⟨decodeWord_addReg x y, _, rfl, fun hx => ?_, ?_, s.advance_writeResultThenFlag_frame x _ _⟩
  · rw [State.reg_result_writeResultThenFlag _ hx, BitVec.toNat_add]
  · rw [State.reg_flag_writeResultThenFlag]
    exact toNat_flagByte_decide _

/-- Settles O30: the borrow and then the difference, once for each order of the operands. -/
theorem subtractionsSetBorrow : Obligations.SubtractionsSetBorrow := by
  refine fun x y s => ⟨decodeWord_subReg x y, decodeWord_subnReg x y,
    ⟨_, rfl, ?_, fun hx => ?_, s.advance_writeFlagThenResult_frame x _ _⟩,
    ⟨_, rfl, ?_, fun hx => ?_, s.advance_writeFlagThenResult_frame x _ _⟩⟩
  · rw [State.reg_result_writeFlagThenResult, toNat_byte_sub]
  · rw [State.reg_flag_writeFlagThenResult _ hx]
    exact toNat_flagByte_decide _
  · rw [State.reg_result_writeFlagThenResult, toNat_byte_sub]
  · rw [State.reg_flag_writeFlagThenResult _ hx]
    exact toNat_flagByte_decide _

/-- Settles O31: the lost bit and then the shifted register; no meaning is given the Y field. -/
theorem shiftsSetLostBitAndIgnoreY : Obligations.ShiftsSetLostBitAndIgnoreY := by
  refine fun x y s => ⟨decodeWord_shr x y, decodeWord_shl x y,
    ⟨_, rfl, ?_, fun hx => ?_, s.advance_writeFlagThenResult_frame x _ _⟩,
    ⟨_, rfl, ?_, fun hx => ?_, s.advance_writeFlagThenResult_frame x _ _⟩, fun _ => ⟨rfl, rfl⟩⟩
  · rw [State.reg_result_writeFlagThenResult, toNat_byte_shr_one]
  · rw [State.reg_flag_writeFlagThenResult _ hx, toNat_lowBitFlag]
  · rw [State.reg_result_writeFlagThenResult, toNat_byte_shl_one]
  · rw [State.reg_flag_writeFlagThenResult _ hx, toNat_highBitFlag]

/-- The carry of 8XY4, whatever X is. -/
theorem reg_flag_completed_addReg (x y : Nibble) (s : State) :
    (completed (.addReg x y) s).reg 0xF#4 = if 255 < (s.reg x).toNat + (s.reg y).toNat then 1#8 else 0#8 :=
  (s.advance.reg_flag_writeResultThenFlag x _ _).trans (flagByte_decide _)

/-- The result of a right shift, whatever X is. -/
theorem toNat_reg_completed_shr (x y : Nibble) (s : State) :
    ((completed (.shr x y) s).reg x).toNat = (s.reg x).toNat / 2 :=
  (congrArg _ (s.advance.reg_result_writeFlagThenResult x _ _)).trans (toNat_byte_shr_one _)

/-- The result of a left shift, whatever X is. -/
theorem toNat_reg_completed_shl (x y : Nibble) (s : State) :
    ((completed (.shl x y) s).reg x).toNat = 2 * (s.reg x).toNat % 256 :=
  (congrArg _ (s.advance.reg_result_writeFlagThenResult x _ _)).trans (toNat_byte_shl_one _)

/-- The result of 8XY5, whatever X is. -/
theorem reg_completed_subReg (x y : Nibble) (s : State) : (completed (.subReg x y) s).reg x = s.reg x - s.reg y :=
  s.advance.reg_result_writeFlagThenResult x _ _

/-- The result of 8XY7, whatever X is. -/
theorem reg_completed_subnReg (x y : Nibble) (s : State) : (completed (.subnReg x y) s).reg x = s.reg y - s.reg x :=
  s.advance.reg_result_writeFlagThenResult x _ _

/-- Settles O32: with X = F the carry stays under 8XY4 and the result under the other four; with X not F both writes stay,
and the operand is the old x[F]. -/
theorem flagRegisterAsOperand : Obligations.FlagRegisterAsOperand := by
  intro x y s
  refine ⟨⟨_, rfl, reg_flag_completed_addReg 0xF#4 y s⟩, ⟨_, rfl, reg_completed_subReg 0xF#4 y s⟩,
    ⟨_, rfl, reg_completed_subnReg 0xF#4 y s⟩, ⟨_, rfl, toNat_reg_completed_shr 0xF#4 y s⟩,
    ⟨_, rfl, toNat_reg_completed_shl 0xF#4 y s⟩, fun hx => ⟨?_, ?_, ?_, ?_, ?_⟩, ?_, ?_, ?_⟩
  · exact ⟨_, rfl, s.advance.reg_result_writeResultThenFlag hx _ _, reg_flag_completed_addReg x 0xF#4 s⟩
  · exact ⟨_, rfl, toNat_reg_completed_shr x 0xF#4 s,
      (congrArg _ (s.advance.reg_flag_writeFlagThenResult hx _ _)).trans (toNat_lowBitFlag _)⟩
  · exact ⟨_, rfl, toNat_reg_completed_shl x 0xF#4 s,
      (congrArg _ (s.advance.reg_flag_writeFlagThenResult hx _ _)).trans (toNat_highBitFlag _)⟩
  · exact ⟨_, rfl, reg_completed_subReg x 0xF#4 s,
      (s.advance.reg_flag_writeFlagThenResult hx _ _).trans (flagByte_decide _)⟩
  · exact ⟨_, rfl, reg_completed_subnReg x 0xF#4 s,
      (s.advance.reg_flag_writeFlagThenResult hx _ _).trans (flagByte_decide _)⟩
  · have hdouble : 255 < (s.reg 0xF#4).toNat + (s.reg 0xF#4).toNat ↔ 128 ≤ (s.reg 0xF#4).toNat := by omega
    refine ⟨_, rfl, (reg_flag_completed_addReg 0xF#4 0xF#4 s).trans ?_⟩
    simp only [hdouble]
  · exact ⟨_, rfl, (reg_completed_subReg 0xF#4 0xF#4 s).trans (BitVec.sub_self _)⟩
  · exact ⟨_, rfl, (reg_completed_subnReg 0xF#4 0xF#4 s).trans (BitVec.sub_self _)⟩

/-- Settles O33: `regsMoved_completed` read at a register that is not x[F] and at x[F]; a fault moves no register. -/
theorem registersChangeOnlyByDestinationOrFlag : Obligations.RegistersChangeOnlyByDestinationOrFlag := by
  intro i s t ht
  rcases eq_completed_or_takeFault ht with ⟨-, rfl⟩ | ⟨r, hr, rfl⟩
  · obtain ⟨b, hregs⟩ := regsMoved_completed i s
    refine ⟨fun r hdest hr => ?_, fun hdest => ⟨fun hf => ?_, fun hf => ?_⟩⟩
    · rw [hregs r hdest, if_neg fun h => hr h.1]
    · rw [hregs _ hdest, hf, if_neg (by simp)]
    · rw [hregs _ hdest, if_pos ⟨rfl, hf⟩]
      exact flagByte_eq_zero_or_one b
  · refine ⟨fun _ _ _ => rfl, fun _ => ⟨fun _ => rfl, fun hf => ?_⟩⟩
    cases (raised_of_writesFlag hf s).symm.trans hr

/-- Settles O35: CXNN writes the stepped LFSR and the register. -/
theorem rndStepsLfsrAndMasks : Obligations.RndStepsLfsrAndMasks :=
  fun x nn s => ⟨decodeWord_rnd x nn, _, rfl, rfl, State.reg_setReg_same _ x _,
    fun r hr => s.keepsRegsBut_advance_setReg x _ r hr, rfl, s.keepsAllBut_advance_setLfsr_setReg x _ _⟩

end Sys2Proof.Machine
end

section
/-! PROOFS. The family of the random source over many steps (60_exceptions.md section 4): the orbits of the LFSR and what
moves it (R248, R249). -/

namespace Sys2Proof.Machine

/-! ## Orbits -/

/-- Bit 0 is dropped and is no tap, so it does not matter to a step (R248). -/
theorem lfsrStep_xor_one (s : Byte) : lfsrStep (s ^^^ 1#8) = lfsrStep s := by
  have hbit : ∀ k, (s ^^^ 1#8).getLsbD (k + 1) = s.getLsbD (k + 1) := fun k => by
    simp [BitVec.getLsbD_xor, BitVec.getLsbD_one]
  have hnew : lfsrNewBit (s ^^^ 1#8) = lfsrNewBit s := by
    simp only [lfsrNewBit, hbit]
  refine BitVec.eq_of_getLsbD_eq fun k _ => ?_
  simp only [getLsbD_lfsrStep, hbit, hnew]

/-- A state of at least 4 has a successor of at least 4: some bit above 1 is set, and it moves down to one above 1 unless
it is bit 2, which is a tap. -/
theorem four_le_lfsrStep : ∀ s : Byte, 4 ≤ s.toNat → 4 ≤ (lfsrStep s).toNat := by
  decide +kernel

/-- A state of at least 4 never falls below 4. -/
theorem four_le_lfsrIterate (k : Nat) {s : Byte} (h : 4 ≤ s.toNat) : 4 ≤ (lfsrIterate k s).toNat := by
  induction k generalizing s with
  | zero => exact h
  | succ k ih => exact ih (four_le_lfsrStep s h)

/-- Iterating in two runs. -/
theorem lfsrIterate_add (j k : Nat) (s : Byte) : lfsrIterate (j + k) s = lfsrIterate k (lfsrIterate j s) := by
  induction j generalizing s with
  | zero => rw [Nat.zero_add]; rfl
  | succ j ih => rw [Nat.succ_add]; exact ih (lfsrStep s)

/-- A step is linear: the new bit is a parity and the rest is a shift. -/
theorem lfsrStep_xor (a b : Byte) : lfsrStep (a ^^^ b) = lfsrStep a ^^^ lfsrStep b := by
  refine BitVec.eq_of_getLsbD_eq fun k hk => ?_
  rw [BitVec.getLsbD_xor]
  rcases Nat.lt_succ_iff_lt_or_eq.1 hk with hlt | rfl
  · simp only [getLsbD_lfsrStep_of_lt _ hlt, BitVec.getLsbD_xor]
  · simp only [getLsbD_lfsrStep_seven, lfsrNewBit, BitVec.getLsbD_xor]
    simp only [Bool.xor_assoc, Bool.xor_left_comm]

/-- Any number of steps is linear. -/
theorem lfsrIterate_xor (k : Nat) (a b : Byte) : lfsrIterate k (a ^^^ b) = lfsrIterate k a ^^^ lfsrIterate k b := by
  induction k generalizing a b with
  | zero => rfl
  | succ k ih => simp only [lfsrIterate, lfsrStep_xor, ih]

/-- A byte is the XOR of its bits. -/
theorem byte_eq_xor_bits (s : Byte) :
    s = (s &&& .twoPow 8 0) ^^^ (s &&& .twoPow 8 1) ^^^ (s &&& .twoPow 8 2) ^^^ (s &&& .twoPow 8 3) ^^^
      (s &&& .twoPow 8 4) ^^^ (s &&& .twoPow 8 5) ^^^ (s &&& .twoPow 8 6) ^^^ (s &&& .twoPow 8 7) := by
  decide +kernel +revert

/-- From a single bit the LFSR is, after two steps, on a cycle whose length divides 63. -/
theorem lfsrIterate_sixty_five_bit (s : Byte) {k : Nat} (hk : k < 8) :
    lfsrIterate 65 (s &&& .twoPow 8 k) = lfsrIterate 2 (s &&& .twoPow 8 k) := by
  have hbit : ∀ k < 8, lfsrIterate 65 (.twoPow 8 k) = lfsrIterate 2 (.twoPow 8 k) := by decide +kernel
  rw [BitVec.and_twoPow]
  split
  · exact hbit k hk
  · decide +kernel

/-- So it is from every byte, by linearity. -/
theorem lfsrIterate_sixty_five (s : Byte) : lfsrIterate 65 s = lfsrIterate 2 s := by
  rw [byte_eq_xor_bits s]
  simp only [lfsrIterate_xor]
  simp only [lfsrIterate_sixty_five_bit s, Nat.reduceLT]

/-- Settles O37: bit 0 does not matter; 1, 2 and 3 reach 0 in at most two steps and a state of at least 4 stays at least 4;
and the cycle of 63 steps is entered after two. -/
theorem lfsrNeverReachesZeroFromLegalSeed : Obligations.LfsrNeverReachesZeroFromLegalSeed := by
  refine ⟨lfsrStep_xor_one, rfl, fun s hs => ⟨fun ⟨k, hk⟩ => ?_, ?_⟩, fun s k _ hk => ?_⟩
  · by_cases h4 : 4 ≤ s.toNat
    · exact absurd (hk ▸ four_le_lfsrIterate k h4) (by decide)
    · have hne : s.toNat ≠ 0 := fun h0 => hs (BitVec.eq_of_toNat_eq h0)
      have hsmall : s.toNat = 1 ∨ s.toNat = 2 ∨ s.toNat = 3 := by omega
      exact hsmall.imp BitVec.eq_of_toNat_eq (Or.imp BitVec.eq_of_toNat_eq BitVec.eq_of_toNat_eq)
  · rintro (rfl | rfl | rfl)
    · exact ⟨1, rfl⟩
    · exact ⟨2, rfl⟩
    · exact ⟨2, rfl⟩
  · obtain ⟨m, rfl⟩ := Nat.exists_eq_add_of_le hk
    calc lfsrIterate (2 + m + 63) s
      _ = lfsrIterate (65 + m) s := congrArg (lfsrIterate · s) (by omega)
      _ = lfsrIterate m (lfsrIterate 2 s) := by rw [lfsrIterate_add, lfsrIterate_sixty_five]
      _ = lfsrIterate (2 + m) s := (lfsrIterate_add 2 m s).symm

/-! ## What moves the LFSR -/

/-- A timer tick leaves the LFSR. -/
theorem State.timerTick_lfsr (s : State) : s.timerTick.lfsr = s.lfsr := by
  by_cases hf : s.fault = none
  · rw [State.timerTick_running hf]
  · rw [State.timerTick_halted hf]

/-- A load leaves the LFSR. -/
theorem State.hostLoad_lfsr (s : State) (bytes : List Byte) : (s.hostLoad bytes).lfsr = s.lfsr := by
  by_cases hacc : s.phase = .empty ∧ s.fault = none ∧ bytes.length ≤ 3584
  · rw [State.hostLoad_accepted hacc]
  · rw [State.hostLoad_refused hacc]

/-- A CpuTick that moves the LFSR ran a CXNN, which moved it one step. -/
theorem State.rnd_of_cpuTick_lfsr_ne {s t : State} (h : s.cpuTick = .next t) (hne : t.lfsr ≠ s.lfsr) :
    s.fault = none ∧ ∃ x nn, decodeWord s.wordAtPc = .ok (.rnd x nn) ∧ t.lfsr = lfsrStep s.lfsr := by
  rcases s.cpuTick_cases with ⟨-, hc⟩ | ⟨hf, -, i, u, hd, hu, heff, hc⟩ | ⟨-, r, -, hc⟩ <;> cases hc.symm.trans h
  · exact absurd rfl hne
  · obtain ⟨-, rfl⟩ := eq_completed_of_fault_eq_none hu (heff.fault.trans hf)
    obtain ⟨⟨x, nn, rfl⟩, hstep⟩ := (completed_lfsr i s).resolve_left hne
    exact ⟨hf, x, nn, hd, hstep⟩
  · exact absurd rfl hne

/-- Settles O38: of the four events only a Reset and a CpuTick move the LFSR, the latter by a CXNN. -/
theorem lfsrMovesOnlyByRnd : Obligations.LfsrMovesOnlyByRnd := by
  intro s t h hne
  cases hi : s.inputs with
  | nil =>
    rw [step_of_inputs_nil hi] at h
    obtain ⟨hf, hrnd⟩ := State.rnd_of_cpuTick_lfsr_ne h hne
    exact .inr ⟨hf, .inl rfl, hrnd⟩
  | cons e rest =>
    rw [step_of_inputs_cons hi] at h
    cases e with
    | reset => exact .inl ⟨rest, rfl⟩
    | load bytes =>
      cases h
      exact absurd (State.hostLoad_lfsr { s with inputs := rest } bytes) hne
    | timerTick =>
      cases h
      exact absurd (State.timerTick_lfsr { s with inputs := rest }) hne
    | cpuTick =>
      obtain ⟨hf, hrnd⟩ := State.rnd_of_cpuTick_lfsr_ne (s := { s with inputs := rest }) h hne
      exact .inr ⟨hf, .inr ⟨rest, rfl⟩, hrnd⟩

end Sys2Proof.Machine
end

section
/-! PROOFS. The family of the display (44_display.md): 00E0 and DXYN (R200 to R209, R234). -/

namespace Sys2Proof.Machine

/-- A cleared framebuffer has every pixel off (R200). -/
theorem Frame.bit_allOff (k : Nat) : Frame.allOff.bit k = false := Frame.pixel_allOff _ _

/-- Setting the framebuffer and publishing it moves the framebuffer, the frames, `pc` and the phase at most. -/
theorem State.keepsAllBut_advance_setFb_publish (s : State) (f : Frame) :
    KeepsAllBut [.fb, .frames, .pc, .phase] s (s.advance.setFb f).publish := by
  intro p hp
  cases p with
  | fb => simp at hp
  | frames => simp at hp
  | pc => simp at hp
  | phase => simp at hp
  | _ => simp [StatePart.same]

/-- DXYN whose sprite lies in memory draws it and publishes (R201). -/
theorem exec_drw_of_spriteInMemory {s : State} {n : Nibble} (x y : Nibble) (h : s.spriteInMemory n) :
    exec (.drw x y n) s = .next (completed (.drw x y n) s) := by
  refine exec_eq_next_completed ?_
  simp [raised, (s.spriteInMemory_iff n).1 h]

/-- The framebuffer DXYN leaves, pixel by pixel: XORed with the sprite, clipped (R203, R205). -/
theorem pixel_completed_drw (x y n : Nibble) (s : State) {px py : Nat} (hx : px < 64) (hy : py < 32) :
    (completed (.drw x y n) s).fb.pixel px py
      = (s.fb.pixel px py ^^
          spriteBit s.mem s.ri.toNat ((s.reg x).toNat % 64) ((s.reg y).toNat % 32) n.toNat px py) := by
  have hdraw := s.fb.pixel_xorSprite (s.startColumn x) (s.startRow y) (s.spriteRows n) px py
  refine hdraw.trans (congrArg (s.fb.pixel px py ^^ ·) ?_)
  have hlen : (s.spriteRows n).length = n.toNat := by simp [State.spriteRows, rowCount]
  simp only [hlen, hx, hy, and_true, spriteBit, State.startColumn, State.startRow, Config.fbWidth, Config.fbHeight]
  by_cases hin : (s.reg x).toNat % 64 ≤ px ∧ px < (s.reg x).toNat % 64 + 8 ∧
      (s.reg y).toNat % 32 ≤ py ∧ py < (s.reg y).toNat % 32 + n.toNat
  · have hrow : py - (s.reg y).toNat % 32 < n.toNat := by omega
    have hbyte : (s.spriteRows n).getD (py - (s.reg y).toNat % 32) 0
        = s.mem.read (s.ri.toNat + (py - (s.reg y).toNat % 32)) := by
      simp [State.spriteRows, rowCount, State.spriteAddr, hrow]
    rw [hbyte]
  · simp only [decide_eq_false hin, Bool.false_and]

/-- A second draw of the same sprite undoes the first, since DXYN moves nothing that it reads but the framebuffer. -/
theorem completed_drw_twice_fb (x y n : Nibble) (s : State) :
    (completed (.drw x y n) (completed (.drw x y n) s)).fb = s.fb := by
  refine Frame.ext_pixel fun px py hx hy => ?_
  have hsecond := pixel_completed_drw x y n (completed (.drw x y n) s) hx hy
  refine hsecond.trans ?_
  rw [pixel_completed_drw x y n s hx hy, Bool.xor_assoc]
  exact (congrArg _ (Bool.xor_self _)).trans (Bool.xor_false _)

/-! ## The obligations -/

/-- Settles O39: 00E0 sets the framebuffer to all pixels off and publishes. -/
theorem clsClearsAndPublishes : Obligations.ClsClearsAndPublishes :=
  ⟨rfl, fun s => ⟨_, rfl, fun k _ => Frame.bit_allOff k, rfl, rfl, s.keepsAllBut_advance_setFb_publish _⟩⟩

/-- Settles O40: pixel by pixel. -/
theorem drwXorsClippedSprite : Obligations.DrwXorsClippedSprite :=
  fun x y n s => ⟨decodeWord_drw x y n, fun h => ⟨_, exec_drw_of_spriteInMemory x y h,
    fun _ _ => pixel_completed_drw x y n s, rfl, rfl, s.keepsAllBut_advance_setFb_publish _⟩⟩

/-- Settles O41: the range check comes before any change. -/
theorem drwBeyondMemoryFaultsUntouched : Obligations.DrwBeyondMemoryFaultsUntouched :=
  fun _ _ n s hn hri => exec_eq_next_takeFault (if_pos ((s.spriteBeyondMemory_iff n).2 ⟨hn, hri⟩))

/-- Settles O42: the first draw keeps `ri`, so the second one is in range too, and it undoes the first. -/
theorem drawingTwiceRestoresFramebuffer : Obligations.DrawingTwiceRestoresFramebuffer := by
  intro x y n s t hin ht
  cases (exec_drw_of_spriteInMemory x y hin).symm.trans ht
  have hfb := completed_drw_twice_fb x y n s
  refine ⟨_, exec_drw_of_spriteInMemory x y hin, hfb, ?_⟩
  simp only [completed_frames, Instr.publishes, if_true, hfb, List.append_assoc, List.singleton_append]

end Sys2Proof.Machine
end

section
/-! PROOFS. The family of timers (60_exceptions.md sections 3 and 6): one tick, many ticks, and ticks between
instructions (R245, R246, R259, R294). -/

namespace Sys2Proof.Machine

/-! ## Ticks of a running machine -/

/-- A step that delivers a TimerTick to a machine without fault lowers the two timers. -/
theorem step_timerTick {s : State} {rest : List Event} (hi : s.inputs = .timerTick :: rest) (hf : s.fault = none) :
    step s = .next { s with dt := saturatingPred s.dt, st := saturatingPred s.st, inputs := rest } :=
  (step_of_inputs_cons hi).trans
    (congrArg Host.Outcome.next (State.timerTick_running (s := { s with inputs := rest }) hf))

/-- Setting the timers and the listed events moves nothing else. -/
theorem State.keepsAllBut_setTimers (s : State) (dt st : Byte) (inputs : List Event) :
    KeepsAllBut [.dt, .st, .inputs] s { s with dt := dt, st := st, inputs := inputs } := by
  intro p hp
  cases p with
  | dt => simp at hp
  | st => simp at hp
  | inputs => simp at hp
  | regs => exact fun _ => rfl
  | mem => exact fun _ => rfl
  | _ => rfl

/-- Both timers after `n` ticks, as the state they leave: each is lower by `n`, down to 0. -/
theorem run_timerTicks (n : Nat) {s : State} (hf : s.fault = none) :
    ∃ dt st : Byte, Host.Core.run Sys2Proof.core n { s with inputs := List.replicate n .timerTick }
        = .next { s with dt := dt, st := st, inputs := [] } ∧
      dt.toNat = s.dt.toNat - n ∧ st.toNat = s.st.toNat - n := by
  induction n generalizing s with
  | zero => exact ⟨s.dt, s.st, rfl, rfl, rfl⟩
  | succ n ih =>
    have hstep := step_timerTick (s := { s with inputs := List.replicate (n + 1) .timerTick }) rfl hf
    obtain ⟨dt, st, hrun, hdt, hst⟩ := ih (s := { s with dt := saturatingPred s.dt, st := saturatingPred s.st }) hf
    simp only [saturatingPred_toNat] at hdt hst
    exact ⟨dt, st, (run_succ_of_next hstep n).trans hrun, by omega, by omega⟩

/-- A completing instruction that reaches no timer lets both of them through: it neither reads nor writes them. -/
theorem completed_setTimers {i : Instr} (h : i.reachesTimer = false) (s : State) (dt st : Byte) :
    completed i { s with dt := dt, st := st } = { completed i s with dt := dt, st := st } := by
  cases i with
  | ldFromDt | ldDt | ldSt => cases h
  | _ => rfl

/-- Whether an instruction faults does not depend on the timers. -/
theorem raised_setTimers (i : Instr) (s : State) (dt st : Byte) :
    raised i { s with dt := dt, st := st } = raised i s := by
  cases i <;> rfl

/-! ## The obligations -/

/-- Settles O46: the tick of a running machine, and of a halted one. -/
theorem timerTickDecrementsEachTimer : Obligations.TimerTickDecrementsEachTimer :=
  fun s rest hi => ⟨fun hf => ⟨_, step_timerTick hi hf, saturatingPred_toNat s.dt, saturatingPred_toNat s.st, rfl,
    s.keepsAllBut_setTimers _ _ rest⟩,
    fun hf => (step_of_inputs_cons hi).trans (deliver_halted (s := { s with inputs := rest }) hf (by decide))⟩

/-- Settles O47: by induction on the number of ticks. -/
theorem timersReachZeroAfterTheirValue : Obligations.TimersReachZeroAfterTheirValue := by
  intro n s hf
  obtain ⟨dt, st, hrun, hdt, hst⟩ := run_timerTicks n hf
  exact ⟨_, hrun, hdt, hst, rfl, s.keepsAllBut_setTimers dt st []⟩

/-- Settles O48: the instruction completes before the tick and after it, and lets the timers through. -/
theorem timerTickCommutesWithOtherInstructions : Obligations.TimerTickCommutesWithOtherInstructions := by
  intro i s t hf htimer ht htf
  obtain ⟨hr, rfl⟩ := eq_completed_of_fault_eq_none ht htf
  have hsame : completed i s = { completed i s with dt := s.dt, st := s.st } := completed_setTimers htimer s s.dt s.st
  have hdt : (completed i s).dt = s.dt := (congrArg State.dt hsame :)
  have hst : (completed i s).st = s.st := (congrArg State.st hsame :)
  rw [State.timerTick_running hf, State.timerTick_running htf, hdt, hst,
    exec_eq_next_completed ((raised_setTimers i s _ _).trans hr), completed_setTimers htimer]

end Sys2Proof.Machine
end

section
/-! PROOFS. The family of memory contents (20_memory.md section 1, 70_reset_and_hazards.md section 2): the canonical form
determines memory, a load copies its program, and a placed word is the one fetched (R285, R287). -/

namespace Sys2Proof.Machine

/-! ## Canonical memories -/

/-- The first listed address of a canonical memory does not read its reset content. -/
theorem Memory.read_head_ne {a : Nat} {u : Byte} {m : Memory} (h : Memory.wf ((a, u) :: m)) :
    Memory.read ((a, u) :: m) a ≠ Memory.resetByte a := by
  rw [Memory.read_cons, if_pos rfl]
  exact (h.2 (a, u) (List.mem_cons_self ..)).2

/-- The first listed address of a canonical memory lies in memory. -/
theorem Memory.head_le {a : Nat} {u : Byte} {m : Memory} (h : Memory.wf ((a, u) :: m)) : a ≤ 0xFFF :=
  (h.2 (a, u) (List.mem_cons_self ..)).1

/-- What follows the first entry is canonical and lies above it. -/
theorem Memory.wf_tail {a : Nat} {u : Byte} {m : Memory} (h : Memory.wf ((a, u) :: m)) :
    m.wf ∧ ∀ c ∈ m, a < c.1 := by
  obtain ⟨hsorted, hcells⟩ := h
  obtain ⟨habove, htail⟩ := List.pairwise_cons.1 hsorted
  exact ⟨⟨htail, fun c hc => hcells c (List.mem_cons_of_mem _ hc)⟩, habove⟩

/-- Of two canonical memories that read alike neither starts below the other. -/
theorem Memory.head_le_head {a b : Nat} {u v : Byte} {m m' : Memory} (h : Memory.wf ((a, u) :: m))
    (h' : Memory.wf ((b, v) :: m'))
    (heq : ∀ c, c ≤ 0xFFF → Memory.read ((a, u) :: m) c = Memory.read ((b, v) :: m') c) : b ≤ a := by
  by_contra hlt
  refine Memory.read_head_ne h ((heq a (Memory.head_le h)).trans (Memory.read_of_lt fun c hc => ?_))
  rcases List.mem_cons.1 hc with rfl | hc
  · exact Nat.not_le.1 hlt
  · exact (Nat.not_le.1 hlt).trans ((Memory.wf_tail h').2 c hc)

/-- Canonical memories that read alike are equal: their first entries agree, and so do the rests. -/
theorem Memory.eq_of_read_eq {m m' : Memory} (h : m.wf) (h' : m'.wf)
    (heq : ∀ a, a ≤ 0xFFF → m.read a = m'.read a) : m = m' := by
  induction m generalizing m' with
  | nil =>
    cases m' with
    | nil => rfl
    | cons d m' => exact absurd (heq d.1 (Memory.head_le h')).symm (Memory.read_head_ne h')
  | cons c m ih =>
    cases m' with
    | nil => exact absurd (heq c.1 (Memory.head_le h)) (Memory.read_head_ne h)
    | cons d m' =>
      obtain ⟨a, u⟩ := c
      obtain ⟨b, v⟩ := d
      obtain rfl : a = b := Nat.le_antisymm
        (Memory.head_le_head h' h fun c hc => (heq c hc).symm) (Memory.head_le_head h h' heq)
      obtain rfl : u = v := by simpa [Memory.read_cons] using heq a (Memory.head_le h)
      obtain ⟨hwf, habove⟩ := Memory.wf_tail h
      obtain ⟨hwf', habove'⟩ := Memory.wf_tail h'
      refine congrArg _ (ih hwf hwf' fun c hc => ?_)
      by_cases hca : a = c
      · subst hca
        rw [Memory.read_of_lt habove, Memory.read_of_lt habove']
      · simpa [Memory.read_cons, hca] using heq c hc

/-! ## Loads and placed words -/

/-- A byte of a program copied to 0x200 (R285). -/
theorem Memory.read_writeBytes_mem {m : Memory} (hm : m.wf) (bytes : List Byte) {k : Nat} (hk : k < bytes.length) :
    (m.writeBytes 0x200 bytes).read (0x200 + k) = bytes[k] := by
  rw [Memory.read_writeBytes hm.1, dif_pos (by omega)]
  simp

/-- An address outside the copied program reads as before (R285). -/
theorem Memory.read_writeBytes_other {m : Memory} (hm : m.wf) {bytes : List Byte} {a : Nat}
    (ha : a < 0x200 ∨ 0x200 + bytes.length ≤ a) : (m.writeBytes 0x200 bytes).read a = m.read a := by
  rw [Memory.read_writeBytes hm.1, dif_neg (by omega)]

/-- A placed word stands inside memory, where it can be fetched. -/
theorem State.canFetch_placeWord (s : State) (w : Word) : (s.placeWord w).canFetch := by
  show s.placeAddr.toNat < 0xFFF
  unfold State.placeAddr
  split
  · exact Nat.lt_of_succ_le ‹_›
  · decide

/-- The word at `pc` of a placed word is that word. -/
theorem State.wordAtPc_placeWord {s : State} (hm : s.mem.wf) (w : Word) : (s.placeWord w).wordAtPc = w := by
  have hread := Memory.read_writeBytes hm.1 s.placeAddr.toNat (wordBytes w)
  have hhigh := hread s.placeAddr.toNat
  have hlow := hread (s.placeAddr.toNat + 1)
  rw [dif_pos (by simp [wordBytes])] at hhigh hlow
  rw [State.wordAtPc, State.placeWord, hhigh, hlow]
  simp [wordBytes]

/-- The next event after placing a word is a CpuTick, which leaves the events that were listed before. -/
theorem State.tickNext_placeWord (s : State) (w : Word) :
    (s.placeWord w).TickNext { s.placeWord w with inputs := s.inputs } := by
  cases hi : s.inputs with
  | nil => exact .inl ⟨by simp [State.placeWord, hi], by simp [State.placeWord, hi]⟩
  | cons e rest => exact .inr ⟨s.inputs, by simp [State.placeWord, hi], by rw [hi]⟩

/-! ## The obligations -/

/-- Settles O50: by induction on both lists. -/
theorem canonicalMemoriesAreDetermined : Obligations.CanonicalMemoriesAreDetermined :=
  fun _ _ => Memory.eq_of_read_eq

/-- Settles O51: the load is accepted or refused. -/
theorem loadCopiesProgramOrIsRefused : Obligations.LoadCopiesProgramOrIsRefused := by
  intro s bytes rest hi hm
  refine ⟨fun hacc => ?_, fun href => ?_⟩
  · have hstep : step s = .next { s with mem := s.mem.writeBytes 0x200 bytes, phase := .loaded, inputs := rest } :=
      (step_of_inputs_cons hi).trans (congrArg _ (State.hostLoad_accepted (s := { s with inputs := rest }) hacc))
    refine ⟨_, hstep, fun k hk => Memory.read_writeBytes_mem hm bytes hk,
      fun a ha => Memory.read_writeBytes_other hm ha, rfl, rfl, fun p hp => ?_⟩
    cases p with
    | mem => simp at hp
    | phase => simp at hp
    | inputs => simp at hp
    | regs => exact fun _ => rfl
    | _ => rfl
  · exact (step_of_inputs_cons hi).trans (congrArg _ (State.hostLoad_refused (s := { s with inputs := rest }) href))

/-- Settles O53: the tick placed before the listed events fetches the placed word. -/
theorem withFetchWordRunsThatInstruction : Obligations.WithFetchWordRunsThatInstruction := by
  intro s w i hm hd
  have hnext := s.tickNext_placeWord w
  rw [State.withFetchWord, tableWord_toNat, hnext.step_eq]
  refine State.cpuTick_of_decode rfl (hnext.canFetch_iff.2 (s.canFetch_placeWord w)) ?_
  rw [hnext.wordAtPc_eq, State.wordAtPc_placeWord hm, hd]

end Sys2Proof.Machine
end

section
/-! PROOFS. The family of reset (10_state.md section 11, 70_reset_and_hazards.md section 1): the values after reset, the
Reset event, and the first step when nothing is loaded (R34, R280, R281, R286). -/

namespace Sys2Proof.Machine

/-! ## Legal parameters -/

/-- A legal font has 80 bytes. -/
theorem Params.length_fontTable {p : Params} (h : p.legal = true) : p.fontTable.length = Config.fontLen := by
  obtain ⟨-, -, ⟨hlen, -⟩, -⟩ := (Params.legal_iff p).1 h
  exact hlen

/-- A legal font begins with digit 0 of the source. -/
theorem Params.take_fontTable {p : Params} (h : p.legal = true) :
    p.fontTable.take 5 = [0xF0#8, 0x90#8, 0x90#8, 0x90#8, 0xF0#8] := by
  obtain ⟨-, -, ⟨-, hdigit⟩, -⟩ := (Params.legal_iff p).1 h
  exact hdigit

/-- A legal seed is at least 4. -/
theorem Params.four_le_prngSeed {p : Params} (h : p.legal = true) : 4 ≤ p.prngSeed.toNat := by
  obtain ⟨-, hseed, -, -⟩ := (Params.legal_iff p).1 h
  exact hseed

/-- The unknown seed of `State.reset` is at least 4. -/
theorem four_le_config_prngSeed : 4 ≤ Config.prngSeed.toNat := by
  have hlt : Config.seedAboveFour.val < 252 := Config.seedAboveFour.isLt
  rw [Config.prngSeed, BitVec.toNat_ofNat]
  omega

/-- The parameters of `State.reset` are legal. -/
theorem legal_config_params : Config.params.legal = true :=
  (Params.legal_iff _).2 ⟨fun depth h => by cases h; decide, four_le_config_prngSeed, ⟨rfl, rfl⟩, by
    show (0 : Rat) < 700
    decide⟩

/-! ## Memory after reset -/

/-- Memory after reset holds the font from 0x050 (R33). -/
theorem getElem?_fontTable {p : Params} (h : p.legal = true) {k : Nat} (hk : k < 80) :
    p.fontTable[k]? = some ((State.resetTo p).mem.read (0x050 + k)) := by
  have hlen := Params.length_fontTable h
  have hread : (State.resetTo p).mem.read (0x050 + k) = initialByte p.fontTable (0x050 + k) := read_initialMemory hlen _
  have hin : Config.fontBase ≤ 0x050 + k ∧ 0x050 + k < Config.fontBase + Config.fontLen := by
    simp only [Config.fontBase, Config.fontLen]; omega
  rw [hread, initialByte, if_pos hin, Nat.add_sub_cancel_left, List.getD_eq_getElem _ _ (by rw [hlen]; exact hk),
    List.getElem?_eq_getElem]

/-- Memory after reset holds digit 0 of the source at 0x050 to 0x054 (R33). -/
theorem read_resetTo_digit_zero {p : Params} (h : p.legal = true) {k : Nat} (hk : k < 5) :
    (State.resetTo p).mem.read (0x050 + k) = [0xF0#8, 0x90#8, 0x90#8, 0x90#8, 0xF0#8][k] := by
  refine Option.some.inj ?_
  rw [← getElem?_fontTable h (by omega), ← List.getElem?_take_of_lt hk, Params.take_fontTable h,
    List.getElem?_eq_getElem]

/-- Memory after reset is zero outside the font (R34). -/
theorem read_resetTo_other {p : Params} (h : p.legal = true) {a : Nat} (ha : a < 0x050 ∨ 0x0A0 ≤ a) :
    (State.resetTo p).mem.read a = 0#8 := by
  have hout : ¬ (Config.fontBase ≤ a ∧ a < Config.fontBase + Config.fontLen) := by
    simp only [Config.fontBase, Config.fontLen]; omega
  exact (read_initialMemory (Params.length_fontTable h) a).trans (if_neg hout)

/-- Memory after reset lists nothing if the font is the default one, since canonical memories are determined. -/
theorem initialMemory_params : initialMemory Config.params = [] :=
  Memory.eq_of_read_eq (initialMemory_wf rfl) Memory.wf_nil fun a _ => read_initialMemory rfl a

/-- `State.reset` is the reset state for its parameters. -/
theorem State.resetTo_params : State.resetTo Config.params = State.reset := by
  rw [State.resetTo, initialMemory_params]
  rfl

/-- Every register is 0 after reset. -/
theorem State.reg_resetTo (p : Params) (r : Nibble) : (State.resetTo p).reg r = 0#8 :=
  Vector.getElem_replicate _

/-- The word at `pc` after reset is 0x0000. -/
theorem State.wordAtPc_resetTo {p : Params} (h : p.legal = true) : (State.resetTo p).wordAtPc = 0x0000#16 := by
  have hhigh := read_resetTo_other h (a := 0x200) (.inr (by decide))
  have hlow := read_resetTo_other h (a := 0x201) (.inr (by decide))
  exact congrArg₂ bytesWord hhigh hlow

/-- With nothing loaded the first step latches IllegalOpcode(0x200, 0x0000) (R286). -/
theorem step_resetTo {p : Params} (h : p.legal = true) :
    step (State.resetTo p) = .next { State.resetTo p with fault := some (.illegalOpcode 0x0200#16 0x0000#16) } := by
  have hword := State.wordAtPc_resetTo h
  have hc : (State.resetTo p).canFetch := by show (0x0200#16).toNat < 0xFFF; decide
  have hd : decodeWord (State.resetTo p).wordAtPc = .error (.unrecognizedOpcode 0x0000#16) := by rw [hword]; decide
  rw [step_of_inputs_nil rfl, State.cpuTick_of_decode_error rfl hc hd, hword]
  rfl

/-! ## The obligations -/

/-- Settles O6: field by field; memory by the three ranges of addresses. -/
theorem resetLeavesTheStatedValues : Obligations.ResetLeavesTheStatedValues := by
  refine ⟨State.resetTo_params, legal_config_params, rfl, rfl, rfl, fun p h => ?_⟩
  exact ⟨rfl, rfl, rfl, State.reg_resetTo p, rfl, rfl, rfl, rfl, fun k _ => Frame.bit_allOff k,
    read_resetTo_digit_zero h (k := 0) (by decide), read_resetTo_digit_zero h (k := 1) (by decide),
    read_resetTo_digit_zero h (k := 2) (by decide), read_resetTo_digit_zero h (k := 3) (by decide),
    read_resetTo_digit_zero h (k := 4) (by decide), fun _ => getElem?_fontTable h,
    fun _ => read_resetTo_other h, rfl, rfl, rfl, rfl, Params.four_le_prngSeed h⟩

/-- Settles O7: the Reset event rebuilds the state from the parameters. -/
theorem resetEventAlwaysGivesResetState : Obligations.ResetEventAlwaysGivesResetState := by
  intro s rest hi
  have hstep : step s = .next { State.resetTo s.params with inputs := rest } := step_of_inputs_cons hi
  refine ⟨hstep, fun hp => ?_⟩
  rw [hstep, hp, State.resetTo_params]

/-- Settles O12: the word at 0x200 after reset is no instruction. -/
theorem runWithoutLoadFaultsAtOnce : Obligations.RunWithoutLoadFaultsAtOnce := by
  refine ⟨?_, fun _ => step_resetTo⟩
  rw [← State.resetTo_params]
  exact step_resetTo legal_config_params

end Sys2Proof.Machine
end

section
/-! PROOFS. The family of the invariant (10_state.md section 12): it holds at reset, every step keeps it, and so it holds
along every run; the launch state and idle points (R35, R262, R287). -/

namespace Sys2Proof.Machine

/-! ## Reset, load and ticks -/

/-- The invariant says nothing about the listed events. -/
theorem State.Inv.setInputs {s : State} (h : s.Inv) (inputs : List Event) : State.Inv { s with inputs := inputs } :=
  ⟨h.ri_le, h.pc_le, h.legal, h.sp_le, h.entries_le, h.mem_wf, h.low_mem, h.lfsr_ge, h.latch, h.fault_pc, h.unloaded⟩

/-- The invariant says nothing about the timers. -/
theorem State.Inv.timerTick {s : State} (h : s.Inv) : s.timerTick.Inv := by
  by_cases hf : s.fault = none
  · rw [State.timerTick_running hf]
    exact ⟨h.ri_le, h.pc_le, h.legal, h.sp_le, h.entries_le, h.mem_wf, h.low_mem, h.lfsr_ge, h.latch, h.fault_pc,
      h.unloaded⟩
  · rwa [State.timerTick_halted hf]

/-- The reset state of a machine with legal parameters meets the invariant. -/
theorem State.inv_resetTo {p : Params} (h : p.legal = true) : (State.resetTo p).Inv where
  ri_le := Nat.zero_le _
  pc_le := by show (0x200#16).toNat ≤ 0x10FE; decide
  legal := h
  sp_le := fun _ _ => Nat.zero_le _
  entries_le := fun v hv => absurd hv List.not_mem_nil
  mem_wf := initialMemory_wf (Params.length_fontTable h)
  low_mem := fun a _ => read_initialMemory (Params.length_fontTable h) a
  lfsr_ge := Params.four_le_prngSeed h
  latch := rfl
  fault_pc := fun _ hr => by cases hr
  unloaded := fun _ => rfl

/-- A load keeps the invariant: it writes from 0x200 upwards and ends phase Empty. -/
theorem State.Inv.hostLoad {s : State} (h : s.Inv) (bytes : List Byte) : (s.hostLoad bytes).Inv := by
  by_cases hacc : s.phase = .empty ∧ s.fault = none ∧ bytes.length ≤ 3584
  · have hwf := State.hostLoad_mem_wf h.mem_wf bytes
    rw [State.hostLoad_accepted hacc] at hwf ⊢
    exact ⟨h.ri_le, h.pc_le, h.legal, h.sp_le, h.entries_le, hwf,
      fun a ha => (Memory.read_writeBytes_other h.mem_wf (.inl ha)).trans (h.low_mem a ha), h.lfsr_ge, h.latch,
      h.fault_pc, fun hphase => by cases hphase⟩
  · rwa [State.hostLoad_refused hacc]

/-! ## The CpuTick -/

/-- Taking a fault at `pc` keeps the invariant. -/
theorem State.Inv.takeFault {s : State} (h : s.Inv) {r : FaultRecord} (hr : r.recordPc = s.pc) :
    (s.takeFault r).Inv :=
  ⟨h.ri_le, h.pc_le, h.legal, h.sp_le, h.entries_le, h.mem_wf, h.low_mem, h.lfsr_ge, h.latch,
    fun r' hr' => by cases hr'; exact hr, h.unloaded⟩

/-- A zero-extended address is at most 0x0FFF. -/
theorem toNat_addr12_le (nnn : Addr12) : nnn.toWord.toNat ≤ 0x0FFF := by
  rw [addr12_toNat_toWord]
  omega

/-- The address after an instruction in memory is at most 0x1000. -/
theorem toNat_pc_add_two_le {pc : Word} (h : pc.toNat < 0xFFF) : (pc + 2).toNat ≤ 0x1000 := by
  rw [BitVec.toNat_add]
  show (pc.toNat + 2) % 65536 ≤ 0x1000
  omega

/-- A completing instruction leaves `pc` at most 0x10FE, the highest target of a BNNN. -/
theorem ExecEffect.pc_le {s t : State} (heff : ExecEffect s t) (h : s.Inv) (hc : s.canFetch) :
    t.pc.toNat ≤ 0x10FE := by
  have hnext := toNat_pc_add_two_le hc
  rcases heff.flow with ⟨-, hpc | hpc | ⟨nnn, hpc⟩ | ⟨b, nnn, hpc⟩⟩ | ⟨v, hstack, hpc⟩ | ⟨-, -, nnn, hpc⟩ <;> rw [hpc]
  · omega
  · rw [BitVec.toNat_add]
    show ((s.pc + 2).toNat + 2) % 65536 ≤ 0x10FE
    omega
  · exact (toNat_addr12_le nnn).trans (by decide)
  · have hsum := BitVec.toNat_add b.toWord nnn.toWord
    have hnnn := toNat_addr12_le nnn
    rw [byte_toNat_toWord] at hsum
    omega
  · have hv := h.entries_le v (by simp [hstack])
    omega
  · exact (toNat_addr12_le nnn).trans (by decide)

/-- A completing instruction leaves at most STACK_DEPTH entries. -/
theorem ExecEffect.sp_le {s t : State} (heff : ExecEffect s t) (h : s.Inv) {depth : Nat}
    (hdepth : s.params.stackDepth = some depth) : t.sp ≤ depth := by
  have hle : s.stack.length ≤ depth := h.sp_le depth hdepth
  show t.stack.length ≤ depth
  rcases heff.flow with ⟨hstack, -⟩ | ⟨v, hstack, -⟩ | ⟨hfull, hstack, -⟩
  · rwa [hstack]
  · rw [hstack, List.length_append] at hle
    omega
  · have hroom := s.hasRoom_iff.2 hfull depth hdepth
    rw [hstack, List.length_append]
    exact hroom

/-- A completing instruction leaves only entries of at most 0x1000: it pushes at most the address after itself. -/
theorem ExecEffect.entries_le {s t : State} (heff : ExecEffect s t) (h : s.Inv) (hc : s.canFetch) :
    ∀ v ∈ t.stack, v.toNat ≤ 0x1000 := by
  intro v hv
  rcases heff.flow with ⟨hstack, -⟩ | ⟨w, hstack, -⟩ | ⟨-, hstack, -⟩
  · exact h.entries_le v (hstack ▸ hv)
  · exact h.entries_le v (by simp [hstack, hv])
  · rw [hstack, List.mem_append, List.mem_singleton] at hv
    rcases hv with hv | rfl
    · exact h.entries_le v hv
    · exact toNat_pc_add_two_le hc

/-- A completing instruction leaves what was published last equal to the framebuffer. -/
theorem ExecEffect.latch {s t : State} (heff : ExecEffect s t) (h : s.Inv) : t.frameLatch = t.fb := by
  rcases heff.frames with ⟨hframes, hfb⟩ | hframes
  · rw [State.frameLatch, hframes, hfb]
    exact h.latch
  · simp [State.frameLatch, hframes]

/-- A completing instruction keeps the invariant. -/
theorem State.Inv.completed {s t : State} (h : s.Inv) (hf : s.fault = none) (hc : s.canFetch)
    (heff : ExecEffect s t) : t.Inv where
  ri_le := by
    rcases heff.ri with hri | ⟨nnn, hri⟩ <;> rw [hri]
    · exact h.ri_le
    · exact toNat_addr12_le nnn
  pc_le := heff.pc_le h hc
  legal := by rw [heff.params]; exact h.legal
  sp_le := fun _ hdepth => heff.sp_le h (heff.params ▸ hdepth)
  entries_le := heff.entries_le h hc
  mem_wf := by rw [heff.mem]; exact h.mem_wf
  low_mem := by rw [heff.mem, heff.params]; exact h.low_mem
  lfsr_ge := by
    rcases heff.lfsr with hlfsr | hlfsr <;> rw [hlfsr]
    · exact h.lfsr_ge
    · exact four_le_lfsrStep _ h.lfsr_ge
  latch := heff.latch h
  fault_pc := fun r hr => by rw [heff.fault, hf] at hr; cases hr
  unloaded := fun hphase => by rw [heff.phase] at hphase; cases hphase

/-- A CpuTick keeps the invariant: the halted machine stands still, an instruction completes, or a fault is taken. -/
theorem State.Inv.cpuTick {s t : State} (h : s.Inv) (ht : s.cpuTick = .next t) : t.Inv := by
  rcases s.cpuTick_cases with ⟨-, hc⟩ | ⟨hf, hfetch, _, _, -, -, heff, hc⟩ | ⟨-, r, hr, hc⟩ <;> cases hc.symm.trans ht
  · exact h
  · exact h.completed hf hfetch heff
  · exact h.takeFault hr

/-- Every event keeps the invariant. -/
theorem State.Inv.deliver {s t : State} (h : s.Inv) (e : Event) (ht : deliver e s = .next t) : t.Inv := by
  cases e with
  | reset => cases ht; exact (State.inv_resetTo h.legal).setInputs s.inputs
  | load bytes => cases ht; exact h.hostLoad bytes
  | cpuTick => exact h.cpuTick ht
  | timerTick => cases ht; exact h.timerTick

/-- Every step keeps the invariant. -/
theorem State.Inv.step {s t : State} (h : s.Inv) (ht : step s = .next t) : t.Inv := by
  cases hi : s.inputs with
  | nil => exact h.cpuTick ((step_of_inputs_nil hi).symm.trans ht)
  | cons e rest => exact (h.setInputs rest).deliver e ((step_of_inputs_cons hi).symm.trans ht)

/-- Every run from a state that meets the invariant answers a state that does. -/
theorem State.Inv.run {s : State} (h : s.Inv) (k : Nat) :
    ∃ t, Host.Core.run Sys2Proof.core k s = .next t ∧ t.Inv := by
  induction k generalizing s with
  | zero => exact ⟨s, rfl, h⟩
  | succ k ih =>
    obtain ⟨u, hu, -⟩ := exists_step_eq_next s
    rw [run_succ_of_next hu]
    exact ih (h.step hu)

/-! ## Idle points -/

/-- At an idle point of a running machine a CpuTick jumps to where it is. -/
theorem State.idlePoint.cpuTick_eq {s : State} (h : s.idlePoint) (hphase : s.phase = .running) :
    s.cpuTick = .next s := by
  obtain ⟨hf, hc, nnn, hd, hpc⟩ := h
  have hjump : s.advance.setPc (absoluteTarget nnn) = s := by
    rw [absoluteTarget, hpc, State.advance, State.setPc, ← hphase]
  rw [State.cpuTick_of_decode hf hc hd]
  exact congrArg _ hjump

/-! ## The obligations -/

/-- Settles O56: event by event. -/
theorem everyStepKeepsInvariant : Obligations.EveryStepKeepsInvariant := fun _ _ => State.Inv.step

/-- Settles O55: `State.reset` is the reset state for its parameters, which are legal. -/
theorem resetMeetsInvariant : Obligations.ResetMeetsInvariant :=
  ⟨fun events => State.resetTo_params ▸ (State.inv_resetTo legal_config_params).setInputs events,
    fun _ events h => (State.inv_resetTo h).setInputs events⟩

/-- Settles O57: by induction on the number of steps, from the reset state. -/
theorem everyRunFromResetIsSound : Obligations.EveryRunFromResetIsSound :=
  fun _ events k h => ((State.inv_resetTo h).setInputs events).run k

/-- Settles O52: the load of the reset state is accepted. -/
theorem launchStateMeetsPremises : Obligations.LaunchStateMeetsPremises := by
  intro p program h hlen
  have hacc : (State.resetTo p).phase = .empty ∧ (State.resetTo p).fault = none ∧ program.length ≤ 3584 :=
    ⟨rfl, rfl, hlen⟩
  have hfont := Params.length_fontTable h
  have hwf : (State.resetTo p).mem.wf := initialMemory_wf hfont
  have hinv := (State.inv_resetTo h).hostLoad program
  rw [State.hostLoad_accepted hacc] at hinv
  rw [State.launched, State.hostLoad_accepted hacc]
  refine ⟨fun k hk => Memory.read_writeBytes_mem hwf program hk,
    fun a ha => (Memory.read_writeBytes_other hwf ha).trans (read_initialMemory hfont a), rfl,
    fun part hpart => ?_, hinv⟩
  cases part with
  | mem => simp at hpart
  | phase => simp at hpart
  | regs => exact fun _ => rfl
  | _ => rfl

/-- Settles O60: the jump of an idle point, and a timer tick, which leaves `pc` and memory. -/
theorem idlePointStaysIdle : Obligations.IdlePointStaysIdle := by
  intro s h hphase
  refine ⟨fun hi => (step_of_inputs_nil hi).trans (h.cpuTick_eq hphase), fun rest hi => ?_, fun rest hi => ?_⟩
  · have hidle : State.idlePoint { s with inputs := rest } := h
    exact (step_of_inputs_cons hi).trans (hidle.cpuTick_eq hphase)
  · exact ⟨_, step_timerTick hi h.1, h, s.keepsAllBut_setTimers _ _ rest⟩

end Sys2Proof.Machine
end

section
/-! PROOFS. The family of what influences nothing (10_state.md sections 5, 9 and 12): a part of the state that no rule reads
may be set to any value, and a run differs in that part only (R26, R31, R255, R293). -/

namespace Sys2Proof.Machine

/-! ## Parts no rule reads -/

/-- Setting a part of the state by `set` is seen by no rule: what a rule reads is unchanged by it, and each operation of
the machine leads from two states that differ by `set` to two states that differ by `set` again. -/
structure Unobserved {α : Type} (set : α → State → State) : Prop where
  inputs : ∀ v s, (set v s).inputs = s.inputs
  fault : ∀ v s, (set v s).fault = s.fault
  pc : ∀ v s, (set v s).pc = s.pc
  mem : ∀ v s, (set v s).mem = s.mem
  phase : ∀ v s, (set v s).phase = s.phase
  raised : ∀ i v s, raised i (set v s) = raised i s
  dropEvent : ∀ v s rest, { set v s with inputs := rest } = set v { s with inputs := rest }
  takeFault : ∀ v s r, (set v s).takeFault r = set v (s.takeFault r)
  setMem : ∀ v s m p, { set v s with mem := m, phase := p } = set v { s with mem := m, phase := p }
  resetEvent : ∀ v s, ∃ v', (set v s).resetEvent = set v' s.resetEvent
  setTimers : ∀ v s, ∃ v',
    { set v s with dt := saturatingPred (set v s).dt, st := saturatingPred (set v s).st }
      = set v' { s with dt := saturatingPred s.dt, st := saturatingPred s.st }
  completed : ∀ i v s, ∃ v', completed i (set v s) = set v' (completed i s)

/-- From two states that differ by `set` the operation `f` answers two next states that differ by `set`. -/
def AnswersAlike {α : Type} (set : α → State → State) (f : State → Result) : Prop :=
  ∀ v s, ∃ t v', f s = .next t ∧ f (set v s) = .next (set v' t)

section
variable {α : Type} {set : α → State → State} (h : Unobserved set)
include h

/-- A load is accepted in both states or refused in both. -/
theorem Unobserved.hostLoad (v : α) (s : State) (bytes : List Byte) :
    (set v s).hostLoad bytes = set v (s.hostLoad bytes) := by
  by_cases hacc : s.phase = .empty ∧ s.fault = none ∧ bytes.length ≤ 3584
  · have hacc' := hacc
    rw [← h.phase v, ← h.fault v] at hacc'
    rw [State.hostLoad_accepted hacc, State.hostLoad_accepted hacc', h.mem, h.setMem]
  · have hacc' := hacc
    rw [← h.phase v, ← h.fault v] at hacc'
    rw [State.hostLoad_refused hacc, State.hostLoad_refused hacc']

/-- A timer tick lowers the timers of both states or of neither. -/
theorem Unobserved.timerTick (v : α) (s : State) : ∃ v', (set v s).timerTick = set v' s.timerTick := by
  by_cases hf : s.fault = none
  · rw [State.timerTick_running hf, State.timerTick_running ((h.fault v s).trans hf)]
    exact h.setTimers v s
  · rw [State.timerTick_halted hf, State.timerTick_halted fun hnone => hf ((h.fault v s).symm.trans hnone)]
    exact ⟨v, rfl⟩

/-- The word at `pc` is the same. -/
theorem Unobserved.wordAtPc (v : α) (s : State) : (set v s).wordAtPc = s.wordAtPc := by
  rw [State.wordAtPc, h.mem, h.pc, State.wordAtPc]

/-- An instruction completes from both states, or faults from both with the same record. -/
theorem Unobserved.exec (i : Instr) : AnswersAlike set (exec i) := by
  intro v s
  cases hr : Machine.raised i s with
  | none =>
    obtain ⟨v', hv'⟩ := h.completed i v s
    exact ⟨_, v', exec_eq_next_completed hr,
      (exec_eq_next_completed ((h.raised i v s).trans hr)).trans (congrArg _ hv')⟩
  | some r =>
    exact ⟨_, v, exec_eq_next_takeFault hr,
      (exec_eq_next_takeFault ((h.raised i v s).trans hr)).trans (congrArg _ (h.takeFault v s r))⟩

/-- A CpuTick finds both states halted, or both unable to fetch, or the same word at `pc` of both. -/
theorem Unobserved.cpuTick : AnswersAlike set State.cpuTick := by
  intro v s
  by_cases hf : s.fault = none
  · have hf' : (set v s).fault = none := (h.fault v s).trans hf
    have hfetch : (set v s).canFetch ↔ s.canFetch := by rw [State.canFetch, h.pc, State.canFetch]
    by_cases hc : s.canFetch
    · cases hd : decodeWord s.wordAtPc with
      | ok i =>
        have hd' : decodeWord (set v s).wordAtPc = .ok i := by rw [h.wordAtPc, hd]
        rw [State.cpuTick_of_decode hf hc hd, State.cpuTick_of_decode hf' (hfetch.2 hc) hd']
        exact h.exec i v s
      | error e =>
        have hd' : decodeWord (set v s).wordAtPc = .error e := by rw [h.wordAtPc, hd]
        refine ⟨_, v, State.cpuTick_of_decode_error hf hc hd, ?_⟩
        rw [State.cpuTick_of_decode_error hf' (hfetch.2 hc) hd', h.takeFault, h.pc, h.wordAtPc]
    · refine ⟨_, v, State.cpuTick_of_not_canFetch hf hc, ?_⟩
      rw [State.cpuTick_of_not_canFetch hf' (mt hfetch.1 hc), h.takeFault, h.pc]
  · exact ⟨s, v, State.cpuTick_halted hf, State.cpuTick_halted fun hnone => hf ((h.fault v s).symm.trans hnone)⟩

/-- Every event is answered alike. -/
theorem Unobserved.deliver (e : Event) : AnswersAlike set (deliver e) := by
  intro v s
  cases e with
  | reset =>
    obtain ⟨v', hv'⟩ := h.resetEvent v s
    exact ⟨_, v', rfl, congrArg _ hv'⟩
  | load bytes => exact ⟨_, v, rfl, congrArg _ (h.hostLoad v s bytes)⟩
  | cpuTick => exact h.cpuTick v s
  | timerTick =>
    obtain ⟨v', hv'⟩ := h.timerTick v s
    exact ⟨_, v', rfl, congrArg _ hv'⟩

/-- Both states have the same next event, so a step answers alike. -/
theorem Unobserved.step : AnswersAlike set step := by
  intro v s
  cases hi : s.inputs with
  | nil =>
    rw [step_of_inputs_nil hi, step_of_inputs_nil ((h.inputs v s).trans hi)]
    exact h.cpuTick v s
  | cons e rest =>
    rw [step_of_inputs_cons hi, step_of_inputs_cons ((h.inputs v s).trans hi), h.dropEvent]
    exact h.deliver e v { s with inputs := rest }

/-- Any number of steps answers alike. -/
theorem Unobserved.run (k : Nat) : AnswersAlike set (Host.Core.run Sys2Proof.core k) := by
  induction k with
  | zero => exact fun v s => ⟨s, v, rfl, rfl⟩
  | succ k ih =>
    intro v s
    obtain ⟨u, w, hu, hu'⟩ := h.step v s
    rw [run_succ_of_next hu, run_succ_of_next hu']
    exact ih w u

end

/-! ## The published frames, the sound timer and the rate -/

/-- Replacing the published frames. -/
def State.setFrames (published : List Frame) (s : State) : State := { s with frames := published }

/-- Replacing the sound timer, with the rate CPU_HZ set to `hz`. -/
def State.setStAndRate (hz : Rat) (v : Byte) (s : State) : State :=
  { s with st := v, params := { s.params with cpuHz := hz } }

/-- No rule reads the published frames (R31): those that write them append to them. -/
theorem unobserved_setFrames : Unobserved State.setFrames where
  inputs := fun _ _ => rfl
  fault := fun _ _ => rfl
  pc := fun _ _ => rfl
  mem := fun _ _ => rfl
  phase := fun _ _ => rfl
  raised := fun i _ _ => by cases i <;> rfl
  dropEvent := fun _ _ _ => rfl
  takeFault := fun _ _ _ => rfl
  setMem := fun _ _ _ _ => rfl
  resetEvent := fun _ _ => ⟨_, rfl⟩
  setTimers := fun _ _ => ⟨_, rfl⟩
  completed := fun i _ _ => by cases i <;> exact ⟨_, rfl⟩

/-- No rule reads the sound timer but its own decrement, and no rule reads CPU_HZ (R26, R293). -/
theorem unobserved_setStAndRate (hz : Rat) : Unobserved (State.setStAndRate hz) where
  inputs := fun _ _ => rfl
  fault := fun _ _ => rfl
  pc := fun _ _ => rfl
  mem := fun _ _ => rfl
  phase := fun _ _ => rfl
  raised := fun i _ _ => by cases i <;> rfl
  dropEvent := fun _ _ _ => rfl
  takeFault := fun _ _ _ => rfl
  setMem := fun _ _ _ _ => rfl
  resetEvent := fun _ _ => ⟨_, rfl⟩
  setTimers := fun _ _ => ⟨_, rfl⟩
  completed := fun i _ _ => by cases i <;> exact ⟨_, rfl⟩

/-! ## The obligations -/

/-- Settles O58: the sound timer and the rate are unobserved. -/
theorem soundTimerAndRateInfluenceNothing : Obligations.SoundTimerAndRateInfluenceNothing :=
  fun k s v hz => (unobserved_setStAndRate hz).run k v s

/-- Settles O59: the published frames are unobserved. -/
theorem publishedFramesInfluenceNothing : Obligations.PublishedFramesInfluenceNothing :=
  fun k s published => unobserved_setFrames.run k published s

end Sys2Proof.Machine
end
